-- ==== Sys2Proof/Word.lean ====
section
/-! DEFINITION. The word of the machine and its plainest field arithmetic (spec 00_scope.md R6, R14). -/

namespace Sys2Proof

/-- A register, a memory cell, an instruction word or an address: 16 bits (R6). -/
abbrev Word := BitVec 16

/-- A console character: 8 bits (R10). -/
abbrev Byte := BitVec 8

end Sys2Proof
end

