-- ==== Sys2Proof/Syntax.lean ====
section
/-! DEFINITION. The instructions as syntax (spec 30_encoding.md R60 to R65, R72): one constructor per row of
spec/opcode_table.json. -/

namespace Sys2Proof

/-- The eight general registers R0 to R7 (R21). Every 3-bit index names one of them. -/
inductive Reg where
  | r0 | r1 | r2 | r3 | r4 | r5 | r6 | r7
  deriving DecidableEq, Repr

/-- The sixteen opcodes of `instr[15:12]` (R65); JSR and JSRR share one. -/
inductive Opcode where
  | br | add | ld | st | jsr | and | ldr | str | rti | not | ldi | sti | jmp | res | lea | trap
  deriving DecidableEq, Repr

/-- An instruction with its operands, each at the exact width of its field (R63, R66). The bits R64 marks `x` are no
operands (R68: they do not change the instruction), save in RTI and RES, whose whole word the abort records (R173). -/
inductive Instr where
  | addReg (dr sr1 sr2 : Reg)
  | addImm (dr sr1 : Reg) (imm5 : BitVec 5)
  | andReg (dr sr1 sr2 : Reg)
  | andImm (dr sr1 : Reg) (imm5 : BitVec 5)
  | not (dr sr1 : Reg)
  | br (nzp : BitVec 3) (offset9 : BitVec 9)
  | jmp (baseR : Reg)
  | jsr (offset11 : BitVec 11)
  | jsrr (baseR : Reg)
  | ld (dr : Reg) (offset9 : BitVec 9)
  | ldi (dr : Reg) (offset9 : BitVec 9)
  | ldr (dr baseR : Reg) (offset6 : BitVec 6)
  | lea (dr : Reg) (offset9 : BitVec 9)
  | st (sr : Reg) (offset9 : BitVec 9)
  | sti (sr : Reg) (offset9 : BitVec 9)
  | str (sr baseR : Reg) (offset6 : BitVec 6)
  | trap (trapvect8 : BitVec 8)
  | rti (low12 : BitVec 12)
  | res (low12 : BitVec 12)
  deriving DecidableEq, Repr

/-- The six hard-wired routines of the trap unit (R146). -/
inductive TrapRoutine where
  | getc | out | puts | inp | putsp | halt
  deriving DecidableEq, Repr

/-- One row of the opcode table: a word `w` is the row's instruction when `w &&& mask = value` (INDEX.md). -/
structure OpcodeRow where
  mnemonic : String
  format : String
  mask : Word
  value : Word
  deriving DecidableEq, Repr

/-- RET is JMP with BaseR = 7 (R72, R112). -/
def Instr.ret : Instr := .jmp .r7

/-- NOP is BR with mask 000 and offset 0 (R70, R72). -/
def Instr.nop : Instr := .br 0 0

end Sys2Proof
end

