-- ==== Sys2Proof/Decode.lean ====
section
/-! DEFINITION. The decoder and, after it, the encoder (spec 30_encoding.md R60 to R70; opcode_table.json). Decoding is
total on all 65,536 words and refuses none (R65): the two illegal opcodes decode to `rti` and `res`, whose meaning is the
fatal decode error. -/

namespace Sys2Proof

/-- `slice lo n w` is the field of `n` bits of `w` whose lowest bit is bit `lo` (R14: `w[lo+n-1 : lo]`). -/
def slice (lo n : Nat) (w : Word) : BitVec n := w.extractLsb' lo n

/-- A 3-bit register index names a register, whatever its value (R21, R62). -/
def Reg.ofBits (b : BitVec 3) : Reg :=
  match b[2], b[1], b[0] with
  | false, false, false => .r0
  | false, false, true  => .r1
  | false, true,  false => .r2
  | false, true,  true  => .r3
  | true,  false, false => .r4
  | true,  false, true  => .r5
  | true,  true,  false => .r6
  | true,  true,  true  => .r7

/-- The opcode map of R65. -/
def Opcode.ofBits (b : BitVec 4) : Opcode :=
  match b[3], b[2], b[1], b[0] with
  | false, false, false, false => .br
  | false, false, false, true  => .add
  | false, false, true,  false => .ld
  | false, false, true,  true  => .st
  | false, true,  false, false => .jsr
  | false, true,  false, true  => .and
  | false, true,  true,  false => .ldr
  | false, true,  true,  true  => .str
  | true,  false, false, false => .rti
  | true,  false, false, true  => .not
  | true,  false, true,  false => .ldi
  | true,  false, true,  true  => .sti
  | true,  true,  false, false => .jmp
  | true,  true,  false, true  => .res
  | true,  true,  true,  false => .lea
  | true,  true,  true,  true  => .trap

/-- The register named by bits 11 to 9: DR, or SR of a store (R63). -/
def fieldDR (w : Word) : Reg := Reg.ofBits (slice 9 3 w)

/-- The register named by bits 8 to 6: SR1 or BaseR (R63). -/
def fieldSR1 (w : Word) : Reg := Reg.ofBits (slice 6 3 w)

/-- The register named by bits 2 to 0: SR2 (R63). -/
def fieldSR2 (w : Word) : Reg := Reg.ofBits (slice 0 3 w)

/-- The decoder (R64, R65): `instr[15:12]`, then bit 5 for ADD and AND and bit 11 for JSR and JSRR; no other bit takes part in
selecting an instruction, and the bits R68 lists are ignored. -/
def decode (w : Word) : Instr :=
  match Opcode.ofBits (slice 12 4 w) with
  | .br   => .br (slice 9 3 w) (slice 0 9 w)
  | .add  => if slice 5 1 w = 1#1 then .addImm (fieldDR w) (fieldSR1 w) (slice 0 5 w) else .addReg (fieldDR w) (fieldSR1 w) (fieldSR2 w)
  | .ld   => .ld (fieldDR w) (slice 0 9 w)
  | .st   => .st (fieldDR w) (slice 0 9 w)
  | .jsr  => if slice 11 1 w = 1#1 then .jsr (slice 0 11 w) else .jsrr (fieldSR1 w)
  | .and  => if slice 5 1 w = 1#1 then .andImm (fieldDR w) (fieldSR1 w) (slice 0 5 w) else .andReg (fieldDR w) (fieldSR1 w) (fieldSR2 w)
  | .ldr  => .ldr (fieldDR w) (fieldSR1 w) (slice 0 6 w)
  | .str  => .str (fieldDR w) (fieldSR1 w) (slice 0 6 w)
  | .rti  => .rti (slice 0 12 w)
  | .not  => .not (fieldDR w) (fieldSR1 w)
  | .ldi  => .ldi (fieldDR w) (slice 0 9 w)
  | .sti  => .sti (fieldDR w) (slice 0 9 w)
  | .jmp  => .jmp (fieldSR1 w)
  | .res  => .res (slice 0 12 w)
  | .lea  => .lea (fieldDR w) (slice 0 9 w)
  | .trap => .trap (slice 0 8 w)

/-- The instruction word spelled by `w` when the instruction has `nbits` bits and the bits above them are 0. An instruction is
one word (R60), so more than 16 bits spell none. -/
def tableWord (nbits w : Nat) : Option Word :=
  if nbits ≤ 16 then some (BitVec.ofNat 16 (w % 2 ^ nbits)) else none

/-- The host's entry to the decoder: `none` only where the bits are longer than an instruction (log entry 19). -/
def decodeTableWord (nbits w : Nat) : Option Instr := (tableWord nbits w).map decode

/-- The index of a register as an instruction field holds it (R21). -/
def Reg.bits (r : Reg) : BitVec 3 :=
  match r with
  | .r0 => 0 | .r1 => 1 | .r2 => 2 | .r3 => 3 | .r4 => 4 | .r5 => 5 | .r6 => 6 | .r7 => 7

/-- The 4-bit value of an opcode (R65). -/
def Opcode.bits (o : Opcode) : BitVec 4 :=
  match o with
  | .br => 0x0 | .add => 0x1 | .ld => 0x2 | .st => 0x3 | .jsr => 0x4 | .and => 0x5 | .ldr => 0x6 | .str => 0x7
  | .rti => 0x8 | .not => 0x9 | .ldi => 0xA | .sti => 0xB | .jmp => 0xC | .res => 0xD | .lea => 0xE | .trap => 0xF

/-- The opcode an instruction is encoded with. -/
def Instr.opcode (i : Instr) : Opcode :=
  match i with
  | .addReg _ _ _ => .add
  | .addImm _ _ _ => .add
  | .andReg _ _ _ => .and
  | .andImm _ _ _ => .and
  | .not _ _ => .not
  | .br _ _ => .br
  | .jmp _ => .jmp
  | .jsr _ => .jsr
  | .jsrr _ => .jsr
  | .ld _ _ => .ld
  | .ldi _ _ => .ldi
  | .ldr _ _ _ => .ldr
  | .lea _ _ => .lea
  | .st _ _ => .st
  | .sti _ _ => .sti
  | .str _ _ _ => .str
  | .trap _ => .trap
  | .rti _ => .rti
  | .res _ => .res

/-- `place lo v` is the word whose field at bit `lo` is `v` and whose other bits are 0. -/
def place {n : Nat} (lo : Nat) (v : BitVec n) : Word := v.setWidth 16 <<< lo

/-- The operand fields of an instruction at their places in R64. Ignored bits are written as an assembler writes them (R68):
0 everywhere, but 1s in bits 5 to 0 of NOT. -/
def operandBits (i : Instr) : Word :=
  match i with
  | .addReg dr sr1 sr2 => place 9 dr.bits ||| place 6 sr1.bits ||| place 0 sr2.bits
  | .addImm dr sr1 imm => place 9 dr.bits ||| place 6 sr1.bits ||| place 5 1#1 ||| place 0 imm
  | .andReg dr sr1 sr2 => place 9 dr.bits ||| place 6 sr1.bits ||| place 0 sr2.bits
  | .andImm dr sr1 imm => place 9 dr.bits ||| place 6 sr1.bits ||| place 5 1#1 ||| place 0 imm
  | .not dr sr1        => place 9 dr.bits ||| place 6 sr1.bits ||| place 0 0b111111#6
  | .br nzp off        => place 9 nzp ||| place 0 off
  | .jmp baseR         => place 6 baseR.bits
  | .jsr off           => place 11 1#1 ||| place 0 off
  | .jsrr baseR        => place 6 baseR.bits
  | .ld dr off         => place 9 dr.bits ||| place 0 off
  | .ldi dr off        => place 9 dr.bits ||| place 0 off
  | .ldr dr baseR off  => place 9 dr.bits ||| place 6 baseR.bits ||| place 0 off
  | .lea dr off        => place 9 dr.bits ||| place 0 off
  | .st sr off         => place 9 sr.bits ||| place 0 off
  | .sti sr off        => place 9 sr.bits ||| place 0 off
  | .str sr baseR off  => place 9 sr.bits ||| place 6 baseR.bits ||| place 0 off
  | .trap vect         => place 0 vect
  | .rti low           => place 0 low
  | .res low           => place 0 low

/-- The encoder (R64): the one word of an instruction. -/
def encode (i : Instr) : Word := place 12 i.opcode.bits ||| operandBits i

/-- The row of spec/opcode_table.json an instruction belongs to: its mnemonic, format, mask and match, copied from there. -/
def Instr.row (i : Instr) : OpcodeRow :=
  match i with
  | .addReg _ _ _ => ⟨"ADD", "reg", 0xF020, 0x1000⟩
  | .addImm _ _ _ => ⟨"ADD", "imm", 0xF020, 0x1020⟩
  | .andReg _ _ _ => ⟨"AND", "reg", 0xF020, 0x5000⟩
  | .andImm _ _ _ => ⟨"AND", "imm", 0xF020, 0x5020⟩
  | .not _ _      => ⟨"NOT", "reg2", 0xF000, 0x9000⟩
  | .br _ _       => ⟨"BR", "branch", 0xF000, 0x0000⟩
  | .jmp _        => ⟨"JMP", "base", 0xF000, 0xC000⟩
  | .jsr _        => ⟨"JSR", "pcrel11", 0xF800, 0x4800⟩
  | .jsrr _       => ⟨"JSRR", "base", 0xF800, 0x4000⟩
  | .ld _ _       => ⟨"LD", "pcrel9", 0xF000, 0x2000⟩
  | .ldi _ _      => ⟨"LDI", "pcrel9", 0xF000, 0xA000⟩
  | .ldr _ _ _    => ⟨"LDR", "baseoff6", 0xF000, 0x6000⟩
  | .lea _ _      => ⟨"LEA", "pcrel9", 0xF000, 0xE000⟩
  | .st _ _       => ⟨"ST", "pcrel9", 0xF000, 0x3000⟩
  | .sti _ _      => ⟨"STI", "pcrel9", 0xF000, 0xB000⟩
  | .str _ _ _    => ⟨"STR", "baseoff6", 0xF000, 0x7000⟩
  | .trap _       => ⟨"TRAP", "trap", 0xF000, 0xF000⟩
  | .rti _        => ⟨"RTI", "illegal", 0xF000, 0x8000⟩
  | .res _        => ⟨"RES", "illegal", 0xF000, 0xD000⟩

/-- The nineteen rows of spec/opcode_table.json in the table's order. -/
def opcodeTable : List OpcodeRow :=
  [ (Instr.addReg .r0 .r0 .r0).row, (Instr.addImm .r0 .r0 0).row, (Instr.andReg .r0 .r0 .r0).row,
    (Instr.andImm .r0 .r0 0).row, (Instr.not .r0 .r0).row, (Instr.br 0 0).row, (Instr.jmp .r0).row,
    (Instr.jsr 0).row, (Instr.jsrr .r0).row ] ++
  [ (Instr.ld .r0 0).row, (Instr.ldi .r0 0).row, (Instr.ldr .r0 .r0 0).row, (Instr.lea .r0 0).row,
    (Instr.st .r0 0).row, (Instr.sti .r0 0).row, (Instr.str .r0 .r0 0).row, (Instr.trap 0).row,
    (Instr.rti 0).row, (Instr.res 0).row ]

/-- A word is of a row when the row's fixed bits are as the row says (INDEX.md). -/
def OpcodeRow.covers (r : OpcodeRow) (w : Word) : Bool := w &&& r.mask == r.value

end Sys2Proof
end

