-- ==== Sys2Proof/Config.lean ====
section
/-! DEFINITION. What is fixed for the machine and never state (spec 00_scope.md R6, R7; 10_state.md R37): the fixed
parameters, and the four open parameters, which no proof can see. -/

namespace Sys2Proof

/-- The program counter at reset (R6, R36). -/
def entryAddress : Word := 0x3000

/-- KBSR, the keyboard status address (R6, R32). -/
def kbsr : Word := 0xFE00

/-- KBDR, the keyboard data address (R6, R32). -/
def kbdr : Word := 0xFE02

/-- The number of words of memory, addresses 0x0000 to 0xFFFF (R6, R31). -/
def memoryWords : Nat := 65536

/-- What a program's write to 0xFE00 or 0xFE02 does (R7, R46). -/
inductive DevWrite where
  | refuse  -- the step has no meaning
  | store   -- the cell is written, as at any other address
  deriving DecidableEq, Repr, Inhabited

/-- The open parameters of R7; R7 says that a model takes each as a field of its configuration. -/
structure Config where
  /-- The bytes the IN routine writes before reading (decision D12: free). -/
  inPrompt : List Byte
  /-- The bytes the HALT routine writes (decision D13: free). -/
  haltNotice : List Byte
  /-- What a MemWrite to a keyboard address does (decision D15; the spec's default is `refuse`). -/
  devWrite : DevWrite
  /-- Whether PUTS and PUTSP read their string through the intercepting read (decision D14; default `false`). -/
  trapStringIntercept : Bool
  deriving DecidableEq, Repr, Inhabited

/-- The configuration of the machine the model speaks of. It has no body, so nothing can be proved of its fields and a
claim about `exec` or `step` holds for every value of the four parameters (log entries 12, 13, 14). -/
opaque Config.machine : Config

/-- The configuration with the spec's own defaults for the two parameters that have one (R7); the two texts stay
arguments. Used by tests and by statements about the shared operations, never by `exec`. -/
def Config.specDefault (inPrompt haltNotice : List Byte) : Config :=
  { inPrompt := inPrompt, haltNotice := haltNotice, devWrite := .refuse, trapStringIntercept := false }

end Sys2Proof
end

