-- ==== Sys2Proof/Machine/State.lean ====
section
/-! DEFINITION. The state of the machine as plain data (spec 10_state.md R20 to R37), the reasons a step can stop, and the state
right after reset. -/

namespace Sys2Proof.Machine

/-- The register file: R0 to R7, 16 bits each, none hard-wired (R21). -/
structure Regs where
  x0 : Word
  x1 : Word
  x2 : Word
  x3 : Word
  x4 : Word
  x5 : Word
  x6 : Word
  x7 : Word
  deriving DecidableEq, Repr

/-- The condition-flag register, exactly one of three flags at any time (R27); its bit encoding is `Cond.bits` (R28). -/
inductive Cond where
  | neg | zero | pos
  deriving DecidableEq, Repr

/-- The run state (R30). -/
inductive RunState where
  | run      -- the core takes steps
  | halted   -- graceful halt, terminal
  | aborted  -- fatal decode error, terminal
  deriving DecidableEq, Repr

/-- The record of the fatal decode error: the address the word was fetched from and the word (R30, R173). -/
structure AbortRecord where
  address : Word
  word : Word
  deriving DecidableEq, Repr

/-- An event of the console output port (R11, R34). -/
inductive ConEvent where
  | byte (b : Byte)
  | flush
  deriving DecidableEq, Repr

/-- Where a trap routine stands that has begun and not completed (R184, decisions D11 and D22; log entry 11). -/
inductive Suspended where
  /-- GETC waits for a character. -/
  | getcWaits
  /-- IN has written its prompt and waits for a character. -/
  | inWaits
  /-- PUTS has the word at `a` still to read; only a string with no terminator within 65,536 words gets here. -/
  | putsAt (a : Word)
  /-- PUTSP has the word at `a` still to read; as `putsAt`. -/
  | putspAt (a : Word)
  deriving DecidableEq, Repr

/-- A word of memory at a word address (R31: the addressable unit is the 16-bit word; log entry 1). -/
abbrev MemCell := Nat × Word

/-- Memory: the cells that are not 0x0000, addresses strictly rising; an unlisted address reads as 0x0000, the reset contents
(R36). The form is `Memory.wf`. -/
abbrev Memory := List MemCell

/-- The whole state of the block (R20), and `suspended`, the model's own rendering of an unfinished trap routine. -/
structure State where
  regs : Regs
  pc : Word
  cond : Cond
  run : RunState
  fault : Option AbortRecord
  mem : Memory
  conin : List Byte
  conout : List ConEvent
  suspended : Option Suspended
  deriving DecidableEq, Repr

/-- The reasons a step could stop with a fault: there are none. No memory access faults (R47), the only exception is the illegal
opcode (R174), and its effect is a state the spec describes (R172), so the machine takes it as a next state. Safe: nothing is left out. -/
inductive Fault where
  deriving DecidableEq, Repr

/-- The reasons a step has no meaning. -/
inductive Refusal where
  /-- Raised by an arm of `exec` for an instruction with no meaning yet; no arm raises it now. Safe. -/
  | notModelled (mnemonic : String)
  /-- Raised by ST, STI and STR to KBSR or KBDR under `DEV_WRITE = refuse`: the step has no meaning (R46, U1). Safe. -/
  | deviceWrite (address : Word)
  deriving DecidableEq, Repr

/-- What a step, or an instruction's meaning, answers. -/
abbrev Result := Host.Outcome State Fault Refusal

/-- The state after reset (R36, R190). Every value is the spec's but two: `conin`, which the spec leaves to the launch, is the empty
queue, its plain case (log entry 9), and `suspended`, the model's own field, is none (log entry 11). -/
def State.reset : State :=
  { regs := ⟨0, 0, 0, 0, 0, 0, 0, 0⟩
    pc := entryAddress
    cond := .zero
    run := .run
    fault := none
    mem := []
    conin := []
    conout := []
    suspended := none }

end Sys2Proof.Machine
end

