-- ==== Sys2Proof/Machine/Ops.lean ====
section
/-! DEFINITION. The named operations over registers, memory, the console ports and the run state (spec 10_state.md, 20_memory.md,
00_scope.md R10 to R13, 60_exceptions.md R172). Every meaning is written over these. -/

namespace Sys2Proof.Machine

/-! ### General registers (R21) -/

/-- The content of a register of the file. -/
def Regs.get (f : Regs) (r : Reg) : Word :=
  match r with
  | .r0 => f.x0 | .r1 => f.x1 | .r2 => f.x2 | .r3 => f.x3 | .r4 => f.x4 | .r5 => f.x5 | .r6 => f.x6 | .r7 => f.x7

/-- The file with one register written. -/
def Regs.set (f : Regs) (r : Reg) (v : Word) : Regs :=
  match r with
  | .r0 => { f with x0 := v }
  | .r1 => { f with x1 := v }
  | .r2 => { f with x2 := v }
  | .r3 => { f with x3 := v }
  | .r4 => { f with x4 := v }
  | .r5 => { f with x5 := v }
  | .r6 => { f with x6 := v }
  | .r7 => { f with x7 := v }

/-- `x[r]` (R15, R21). -/
def State.reg (s : State) (r : Reg) : Word := s.regs.get r

/-- `x[r] <- v` (R15, R21). -/
def State.setReg (r : Reg) (v : Word) (s : State) : State := { s with regs := s.regs.set r v }

/-! ### Other registers -/

/-- `pc <- v` (R24). -/
def State.setPc (v : Word) (s : State) : State := { s with pc := v }

/-- `cond <- f` (R27). -/
def State.setCond (f : Cond) (s : State) : State := { s with cond := f }

/-- `run <- r` (R30). -/
def State.setRun (r : RunState) (s : State) : State := { s with run := r }

/-- Write the abort record (R30, R173). -/
def State.setFault (f : Option AbortRecord) (s : State) : State := { s with fault := f }

/-- Say where an unfinished trap routine stands, or that there is none. -/
def State.setSuspended (o : Option Suspended) (s : State) : State := { s with suspended := o }

/-- NVM's `running` (R30): true exactly in RUN. A status output of the block (R13). -/
def State.running (s : State) : Bool := s.run == .run

/-! ### The memory array (R31, R40) -/

/-- The word stored at an address; 0x0000 where nothing is listed (R36). -/
def Memory.get (m : Memory) (a : Nat) : Word :=
  match m with
  | [] => 0
  | (k, v) :: rest => if k = a then v else Memory.get rest a

/-- Store a word at an address, keeping the canonical form: storing 0x0000 removes the entry. -/
def Memory.put (m : Memory) (a : Nat) (v : Word) : Memory :=
  match m with
  | [] => if v = 0 then [] else [(a, v)]
  | (k, u) :: rest =>
    if a < k then (if v = 0 then (k, u) :: rest else (a, v) :: (k, u) :: rest)
    else if a = k then (if v = 0 then rest else (a, v) :: rest)
    else (k, u) :: Memory.put rest a v

/-- Whether every listed address is at least `lo` and below 65,536, addresses strictly rise, and no listed word is 0x0000. -/
def Memory.wfFrom (lo : Nat) (m : Memory) : Bool :=
  match m with
  | [] => true
  | (k, v) :: rest => decide (lo ≤ k) && decide (k < memoryWords) && decide (v ≠ 0) && Memory.wfFrom (k + 1) rest

/-- The canonical form of memory. -/
def Memory.wf (m : Memory) : Bool := Memory.wfFrom 0 m

/-- `mem[a]`, with no intercept (R15, R31). -/
def State.cell (s : State) (a : Word) : Word := Memory.get s.mem a.toNat

/-- `mem[a] <- v`, a plain store (R12, R45). Also the loader port's store. -/
def State.storeCell (a v : Word) (s : State) : State := { s with mem := Memory.put s.mem a.toNat v }

/-! ### The console ports (R10, R11) -/

/-- The input queue replaced. `ConIn.avail()` and `ConIn.pop()` (R10) are the two cases of a match on the queue: a character is pending
exactly when it is not empty, and popping leaves its tail. -/
def State.setConin (q : List Byte) (s : State) : State := { s with conin := q }

/-- The console host appends one character at the tail of the input queue (R10, R33). A move of the host, between two steps; no
instruction makes it (log entry 9). -/
def State.supply (b : Byte) (s : State) : State := { s with conin := s.conin ++ [b] }

/-- Append events to the console output, in order (R11, R34). -/
def State.emit (es : List ConEvent) (s : State) : State := { s with conout := s.conout ++ es }

/-! ### The memory primitives (R41, R42, R45, R46) -/

/-- The status word when a character was pending (R43, decision D8; log entry 8). -/
def statusPending : Word := 0x8000

/-- `MemRead(0xFE00)`, the keyboard-status intercept (R42): poll; if a character is pending, set the status cell, move the character
zero-extended to the data cell, and take it off the queue; else clear the status cell. Answers the status word. -/
def pollKeyboard (s : State) : Word × State :=
  match s.conin with
  | [] => (0, s.storeCell kbsr 0)
  | c :: rest => (statusPending, ((s.storeCell kbsr statusPending).storeCell kbdr (c.setWidth 16)).setConin rest)

/-- `MemRead(a)` (R41, R42): the intercept at 0xFE00, elsewhere the stored word and no change. -/
def memRead (a : Word) (s : State) : Word × State :=
  if a = kbsr then pollKeyboard s else (s.cell a, s)

/-- `MemWrite(a, v)` (R45, R46): a plain store, but at the two keyboard addresses as `DEV_WRITE` says. -/
def memWrite (c : Config) (a v : Word) (s : State) : Result :=
  if a = kbsr ∨ a = kbdr then
    match c.devWrite with
    | .refuse => .refused (.deviceWrite a)
    | .store => .next (s.storeCell a v)
  else .next (s.storeCell a v)

/-- FETCH and INCREMENT (R170, R171): the intercepting read at `pc`, then `pc <- pc + 1`, before anything else. -/
def fetch (s : State) : Word × State :=
  ((memRead s.pc s).1, (memRead s.pc s).2.setPc (s.pc + 1))

/-- The address `A` the executing instruction was fetched from: while it executes, `pc` is `A + 1` (R24). -/
def State.fetchAddress (s : State) : Word := s.pc - 1

/-! ### The one exception (R172)

There is no handler, no vector, no saved status and no mode (R177): the machine records the address and the word and stops for ever.
There is no return from it either (R178): RTI is itself illegal, and nothing returns `run` to RUN (R186). -/

/-- `raise IllegalOpcode(A, instr)` (R172): `fault <- (A, instr)`, `run <- ABORTED`, nothing else. -/
def raiseIllegalOpcode (a instr : Word) (s : State) : State :=
  (s.setFault (some ⟨a, instr⟩)).setRun .aborted

end Sys2Proof.Machine
end

