-- ==== Sys2Proof/Machine/Flags.lean ====
section
/-! DEFINITION. The condition-flag logic (spec 10_state.md R27 to R29; 30_encoding.md R67; 40_alu.md R90, R91). -/

namespace Sys2Proof.Machine

/-- The flag of a word: NEG if bit 15 is 1, else ZERO if the word is 0x0000, else POS (R90). -/
def condOf (v : Word) : Cond :=
  if v[15] then .neg else if v = 0 then .zero else .pos

/-- `SetFlags(i)` (R90): the flag of the register's current value, read after the write. -/
def setFlags (r : Reg) (s : State) : State := s.setCond (condOf (s.reg r))

/-- Write a destination register, then set the flags from it (R91). -/
def writeDest (r : Reg) (v : Word) (s : State) : State := setFlags r (s.setReg r v)

/-- The bit encoding of `cond`: NEG = 100, ZERO = 010, POS = 001 (R28, decision D3; log entry 3). -/
def Cond.bits (f : Cond) : BitVec 3 :=
  match f with
  | .neg => 0b100 | .zero => 0b010 | .pos => 0b001

/-- The branch test: (mask & current flags) ≠ 0 (R67, R110). -/
def branchTaken (nzp : BitVec 3) (f : Cond) : Bool := (nzp &&& f.bits) != 0

end Sys2Proof.Machine
end

