-- ==== Sys2Proof/Machine/Operands.lean ====
section
/-! DEFINITION. The operand forms and addressing modes (spec 00_scope.md R16, R17; 30_encoding.md R66; 42_load_store.md R125). -/

namespace Sys2Proof.Machine

/-- `sext_N(v)` (R16): the field's top bit fills all higher bits. -/
def sext {n : Nat} (v : BitVec n) : Word := v.signExtend 16

/-- `zext_N(v)` (R17): the higher bits are 0. -/
def zext {n : Nat} (v : BitVec n) : Word := v.setWidth 16

/-- The low byte of a word, bits 7 to 0 (R14). -/
def lowByte (v : Word) : Byte := v.extractLsb' 0 8

/-- The high byte of a word, bits 15 to 8 (R14). -/
def highByte (v : Word) : Byte := v.extractLsb' 8 8

/-- The second operand of ADD and AND in register mode: `x[SR2]` (R93, R95). -/
def State.regOperand (s : State) (sr2 : Reg) : Word := s.reg sr2

/-- The second operand of ADD and AND in immediate mode: `sext_5(imm5)` (R94, R96). -/
def immOperand (imm5 : BitVec 5) : Word := sext imm5

/-- PC-relative address: the incremented `pc` plus the sign-extended offset of 9 or 11 bits, modulo 2^16 (R66, R113, R125). -/
def State.pcRelative {n : Nat} (s : State) (offset : BitVec n) : Word := s.pc + sext offset

/-- Base + offset address: `x[BaseR] + sext_6(offset6)`, modulo 2^16 (R125). -/
def State.baseOffset (s : State) (baseR : Reg) (offset6 : BitVec 6) : Word := s.reg baseR + sext offset6

end Sys2Proof.Machine
end

