-- ==== Sys2Proof/Machine/Alu.lean ====
section
/-! DEFINITION. ADD, AND and NOT (spec 40_alu.md R92 to R99). Every meaning takes the state after fetch and increment. -/

namespace Sys2Proof.Machine

/-- ADD, register mode (R93). -/
def execAddReg (dr sr1 sr2 : Reg) (s : State) : Result :=
  .next (writeDest dr (s.reg sr1 + s.regOperand sr2) s)

/-- ADD, immediate mode (R94). -/
def execAddImm (dr sr1 : Reg) (imm5 : BitVec 5) (s : State) : Result :=
  .next (writeDest dr (s.reg sr1 + immOperand imm5) s)

/-- AND, register mode (R95). -/
def execAndReg (dr sr1 sr2 : Reg) (s : State) : Result :=
  .next (writeDest dr (s.reg sr1 &&& s.regOperand sr2) s)

/-- AND, immediate mode (R96). -/
def execAndImm (dr sr1 : Reg) (imm5 : BitVec 5) (s : State) : Result :=
  .next (writeDest dr (s.reg sr1 &&& immOperand imm5) s)

/-- NOT (R97). -/
def execNot (dr sr1 : Reg) (s : State) : Result :=
  .next (writeDest dr (~~~ s.reg sr1) s)

end Sys2Proof.Machine
end

