-- ==== Sys2Proof/Machine/Control.lean ====
section
/-! DEFINITION. BR, JMP, JSR and JSRR (spec 41_control.md R110 to R116). Every meaning takes the state after fetch and increment,
so `s.pc` is the address of the instruction plus 1. -/

namespace Sys2Proof.Machine

/-- `x[7] <- pc`, the link write of JSR, JSRR and TRAP; it sets no flag (R22, R91). -/
def State.link (s : State) : State := s.setReg .r7 s.pc

/-- BR (R110): to the PC-relative target if the mask names the current flag, else on. -/
def execBr (nzp : BitVec 3) (offset9 : BitVec 9) (s : State) : Result :=
  .next (if branchTaken nzp s.cond then s.setPc (s.pcRelative offset9) else s)

/-- JMP (R111); RET is JMP through R7 (R112). -/
def execJmp (baseR : Reg) (s : State) : Result :=
  .next (s.setPc (s.reg baseR))

/-- JSR (R113): link, then PC-relative. -/
def execJsr (offset11 : BitVec 11) (s : State) : Result :=
  .next (s.link.setPc (s.pcRelative offset11))

/-- JSRR (R114): link FIRST, then read the base register, so that `JSRR R7` falls through. -/
def execJsrr (baseR : Reg) (s : State) : Result :=
  .next (s.link.setPc (s.link.reg baseR))

end Sys2Proof.Machine
end

