-- ==== Sys2Proof/Machine/LoadStore.lean ====
section
/-! DEFINITION. LD, LDI, LDR, LEA, ST, STI and STR (spec 42_load_store.md R125 to R134), over the primitives of 20_memory.md. Every
meaning takes the state after fetch and increment. -/

namespace Sys2Proof.Machine

/-- Read a word through the intercepting read into a destination register and set the flags from it (R126 to R128). -/
def loadInto (dr : Reg) (ea : Word) (s : State) : State :=
  writeDest dr (memRead ea s).1 (memRead ea s).2

/-- LD (R126). -/
def execLd (dr : Reg) (offset9 : BitVec 9) (s : State) : Result :=
  .next (loadInto dr (s.pcRelative offset9) s)

/-- LDI (R127): the pointer read, then the data read in the state the pointer read left (R55). -/
def execLdi (dr : Reg) (offset9 : BitVec 9) (s : State) : Result :=
  .next (loadInto dr (memRead (s.pcRelative offset9) s).1 (memRead (s.pcRelative offset9) s).2)

/-- LDR (R128). -/
def execLdr (dr baseR : Reg) (offset6 : BitVec 6) (s : State) : Result :=
  .next (loadInto dr (s.baseOffset baseR offset6) s)

/-- LEA (R129): the address itself, no access; it sets the flags. -/
def execLea (dr : Reg) (offset9 : BitVec 9) (s : State) : Result :=
  .next (writeDest dr (s.pcRelative offset9) s)

/-- ST (R130). -/
def execSt (sr : Reg) (offset9 : BitVec 9) (s : State) : Result :=
  memWrite Config.machine (s.pcRelative offset9) (s.reg sr) s

/-- STI (R131): the pointer read, with intercept, then the write in the state it left (R55). -/
def execSti (sr : Reg) (offset9 : BitVec 9) (s : State) : Result :=
  memWrite Config.machine (memRead (s.pcRelative offset9) s).1 (s.reg sr) (memRead (s.pcRelative offset9) s).2

/-- STR (R132). -/
def execStr (sr baseR : Reg) (offset6 : BitVec 6) (s : State) : Result :=
  memWrite Config.machine (s.baseOffset baseR offset6) (s.reg sr) s

end Sys2Proof.Machine
end

