-- ==== Sys2Proof/Machine/TrapSystem.lean ====
section
/-! DEFINITION. TRAP and the trap unit, and the illegal opcodes RTI and RES (spec 43_trap_system.md R145 to R158; 60_exceptions.md R172,
R184). The routines are hard-wired, not code in memory (R157); a routine is part of the TRAP step (decision D22). -/

namespace Sys2Proof.Machine

/-- The vector table of the trap unit (R146): compared on all 8 bits; any other vector selects no routine. -/
def routineOf (v : BitVec 8) : Option TrapRoutine :=
  if v = 0x20 then some .getc
  else if v = 0x21 then some .out
  else if v = 0x22 then some .puts
  else if v = 0x23 then some .inp
  else if v = 0x24 then some .putsp
  else if v = 0x25 then some .halt
  else none

/-- The events of writing bytes, in order. -/
def byteEvents (bs : List Byte) : List ConEvent := bs.map ConEvent.byte

/-- GETC (R147): with a character pending, take it zero-extended into R0 and set the flags; else wait (R184). -/
def getcRoutine (s : State) : State :=
  match s.conin with
  | [] => s.setSuspended (some .getcWaits)
  | c :: rest => writeDest .r0 (zext c) ((s.setConin rest).setSuspended none)

/-- OUT (R148): the low byte of R0, then a flush. -/
def outRoutine (s : State) : State :=
  s.emit [.byte (lowByte (s.reg .r0)), .flush]

/-- One string word of PUTS or PUTSP (R54): straight from the array, or through the intercepting read where the open parameter says
so; the two differ only at 0xFE00. -/
def strRead (c : Config) (a : Word) (s : State) : Word × State :=
  if a = kbsr then (if c.trapStringIntercept then memRead a s else (s.cell a, s)) else (s.cell a, s)

/-- The loop of PUTS (R149) for at most `fuel` words from address `a`. A string with no terminator among them leaves the routine
suspended at the next address. -/
def putsLoop (c : Config) (fuel : Nat) (a : Word) (s : State) : State :=
  match fuel with
  | 0 => s.setSuspended (some (.putsAt a))
  | n + 1 =>
    if (strRead c a s).1 = 0 then ((strRead c a s).2.emit [.flush]).setSuspended none
    else putsLoop c n (a + 1) ((strRead c a s).2.emit [.byte (lowByte (strRead c a s).1)])

/-- What PUTSP writes for one non-zero word (R150): the low byte, the high byte if it is not 0x00, a flush. -/
def packedEvents (w : Word) : List ConEvent :=
  if highByte w = 0 then [.byte (lowByte w), .flush] else [.byte (lowByte w), .byte (highByte w), .flush]

/-- The loop of PUTSP (R150), as `putsLoop`; no flush after the terminator. -/
def putspLoop (c : Config) (fuel : Nat) (a : Word) (s : State) : State :=
  match fuel with
  | 0 => s.setSuspended (some (.putspAt a))
  | n + 1 =>
    if (strRead c a s).1 = 0 then (strRead c a s).2.setSuspended none
    else putspLoop c n (a + 1) ((strRead c a s).2.emit (packedEvents (strRead c a s).1))

/-- PUTS (R149). 65,536 words are the whole memory, so any string that has a terminator ends within one step (log entry 16). -/
def putsRoutine (c : Config) (s : State) : State := putsLoop c memoryWords (s.reg .r0) s

/-- PUTSP (R150). -/
def putspRoutine (c : Config) (s : State) : State := putspLoop c memoryWords (s.reg .r0) s

/-- The second half of IN (R151): with a character pending, take it, echo it, flush, store it zero-extended in R0 and set the flags;
else wait (R184). -/
def inRead (s : State) : State :=
  match s.conin with
  | [] => s.setSuspended (some .inWaits)
  | c :: rest => writeDest .r0 (zext c) (((s.setConin rest).setSuspended none).emit [.byte c, .flush])

/-- IN (R151): prompt, flush, then the read. -/
def inRoutine (c : Config) (s : State) : State :=
  inRead (s.emit (byteEvents c.inPrompt ++ [.flush]))

/-- HALT (R152): notice, flush, `run <- HALTED`. -/
def haltRoutine (c : Config) (s : State) : State :=
  (s.emit (byteEvents c.haltNotice ++ [.flush])).setRun .halted

/-- The trap unit's dispatch (R145, R146). A vector with no routine does nothing (R153). -/
def trapUnit (c : Config) (v : BitVec 8) (s : State) : State :=
  match routineOf v with
  | some .getc => getcRoutine s
  | some .out => outRoutine s
  | some .puts => putsRoutine c s
  | some .inp => inRoutine c s
  | some .putsp => putspRoutine c s
  | some .halt => haltRoutine c s
  | none => s

/-- Go on with a routine that has begun and not completed: a waiting routine looks at the queue again, a string goes on at its next
word (R184, D22). -/
def resumeRoutine (c : Config) (r : Suspended) (s : State) : State :=
  match r with
  | .getcWaits => getcRoutine s
  | .inWaits => inRead s
  | .putsAt a => putsLoop c memoryWords a s
  | .putspAt a => putspLoop c memoryWords a s

/-- TRAP (R145): link first, for every vector; then the routine; `pc` stays at `A + 1`. -/
def execTrap (trapvect8 : BitVec 8) (s : State) : Result :=
  .next (trapUnit Config.machine trapvect8 s.link)

/-- The word of an instruction of an illegal opcode: the opcode over the low 12 bits (R64). -/
def illegalWord (opcode : BitVec 4) (low12 : BitVec 12) : Word := opcode ++ low12

/-- RTI (R154): illegal; it restores nothing and returns from nothing. -/
def execRti (low12 : BitVec 12) (s : State) : Result :=
  .next (raiseIllegalOpcode s.fetchAddress (illegalWord 0x8 low12) s)

/-- RES (R155): illegal. -/
def execRes (low12 : BitVec 12) (s : State) : Result :=
  .next (raiseIllegalOpcode s.fetchAddress (illegalWord 0xD low12) s)

end Sys2Proof.Machine
end

