-- ==== Sys2Proof/Machine/Step.lean ====
section
/-! DEFINITION. One step of the core (spec 60_exceptions.md R170, R171, R184, R186), and where the host places an instruction. -/

namespace Sys2Proof.Machine

/-- One step. In RUN with no routine unfinished: fetch, increment, decode, execute (R170). With a trap routine unfinished: go on with it
(R184, D22). In HALTED or ABORTED nothing changes, for ever (R186; log entry 6). -/
def step (s : State) : Host.Outcome State Fault Refusal :=
  match s.run with
  | .halted => .next s
  | .aborted => .next s
  | .run =>
    match s.suspended with
    | some r => .next (resumeRoutine Config.machine r s)
    | none => exec (decode (fetch s).1) (fetch s).2

/-- The state with an instruction word stored at `pc` by a plain store, running, with no routine unfinished, so that the next step runs
that word (log entry 18). At `pc = 0xFE00` no program word is ever fetched (R42), so none can be placed there. -/
def State.withFetchWord (s : State) (nbits w : Nat) : State :=
  (((s.storeCell s.pc (BitVec.ofNat 16 (w % 2 ^ nbits))).setRun .run).setFault none).setSuspended none

end Sys2Proof.Machine
end

