-- ==== Sys2Proof/Machine/Loader.lean ====
section
/-! DEFINITION. The loader port and the launch (spec 00_scope.md R12; 70_reset_and_hazards.md R190 to R195, R202). It acts before the
first step and never after; no step calls it. -/

namespace Sys2Proof.Machine

/-- The words a sequence of bytes spells, big-endian (R48, R192); none where their number is odd (decision D20). -/
def wordsOfBytes (bs : List Byte) : Option (List Word) :=
  match bs with
  | [] => some []
  | [_] => none
  | hi :: lo :: rest => (wordsOfBytes rest).map (fun ws => (hi ++ lo : BitVec (8 + 8)) :: ws)

/-- An image: its origin, then its words (R192). None where it has no origin, an odd number of bytes, or runs past 0xFFFF: a launch
precondition the spec states (D20; log entry 17). -/
def parseImage (bs : List Byte) : Option (Word × List Word) :=
  match wordsOfBytes bs with
  | some (origin :: ws) => if origin.toNat + ws.length ≤ memoryWords then some (origin, ws) else none
  | some [] => none
  | none => none

/-- Store words at successive addresses by plain stores: no intercept, no `DEV_WRITE` policy (R12, R192). -/
def storeWords (a : Word) (ws : List Word) (s : State) : State :=
  match ws with
  | [] => s
  | w :: rest => storeWords (a + 1) rest (s.storeCell a w)

/-- Load images in order; a later one overwrites an earlier one's cells (R193). None where one does not load (R194). -/
def loadImages (images : List (List Byte)) (s : State) : Option State :=
  match images with
  | [] => some s
  | image :: rest =>
    match parseImage image with
    | none => none
    | some (origin, ws) => loadImages rest (storeWords origin ws s)

/-- The start state of a run (R191, R202): reset, then the images, with the input the host has queued. At least one image is loaded
(R193). The entry address does not follow the image (R195). -/
def launch (images : List (List Byte)) (input : List Byte) : Option State :=
  match images with
  | [] => none
  | _ :: _ => loadImages images (State.reset.setConin input)

end Sys2Proof.Machine
end

