-- ==== Sys2Proof/Safety.lean ====
section
/-! DEFINITION. What holds of every state of a run, and what a run is (spec 10_state.md R20, R30; 60_exceptions.md R170, R184, R186). -/

namespace Sys2Proof.Machine

/-- The invariant of the state: memory is in its canonical form; a fault record is there exactly in ABORTED (R30); a trap routine is
unfinished only while the machine runs (R186). -/
structure State.Inv (s : State) : Prop where
  memWf : Memory.wf s.mem = true
  faultIff : s.fault.isSome = true ↔ s.run = .aborted
  suspendedRuns : s.suspended.isSome = true → s.run = .run

/-- One move of a run: a step of the core, or the console host appending a character between two steps (R8, R10). -/
inductive Move : State → State → Prop where
  | step {s t : State} (h : Machine.step s = .next t) : Move s t
  | supply (b : Byte) (s : State) : Move s (s.supply b)

/-- The states a run passes through from `s`. -/
inductive Reaches (s : State) : State → Prop where
  | start : Reaches s s
  | move {t u : State} (h : Reaches s t) (m : Move t u) : Reaches s u

end Sys2Proof.Machine
end

