-- ==== Sys2Proof/WellFormed.lean ====
section
/-! DEFINITION. The one check the spec makes of an instruction: the Legal column of R65 (30_encoding.md). -/

namespace Sys2Proof

/-- Whether the instruction is legal (R65, R69). Only RTI and RES are not; there is no illegal operand (R174: every
register index and every immediate is valid, unused bits are ignored), which the operand types already say. -/
def Instr.legal (i : Instr) : Bool :=
  match i with
  | .addReg _ _ _ => true
  | .addImm _ _ _ => true
  | .andReg _ _ _ => true
  | .andImm _ _ _ => true
  | .not _ _ => true
  | .br _ _ => true
  | .jmp _ => true
  | .jsr _ => true
  | .jsrr _ => true
  | .ld _ _ => true
  | .ldi _ _ => true
  | .ldr _ _ _ => true
  | .lea _ _ => true
  | .st _ _ => true
  | .sti _ _ => true
  | .str _ _ _ => true
  | .trap _ => true
  | .rti _ => false
  | .res _ => false

end Sys2Proof
end

