-- ==== Sys2Proof/Certificates/Slice0/Obligations.lean ====
section
/-! DEFINITION. The statements for the provers: what the numbered rules of spec/ say the machine does. -/

namespace Sys2Proof.Claims

open Sys2Proof.Machine

/-! ### The words the statements are written in -/

/-- The flag a word gives, by R90's ranges: NEG 0x8000 … 0xFFFF, ZERO 0x0000, POS 0x0001 … 0x7FFF. -/
def FlagOf (v : Word) (f : Cond) : Prop :=
  (f = .neg ↔ 0x8000 ≤ v.toNat) ∧ (f = .zero ↔ v.toNat = 0) ∧ (f = .pos ↔ 1 ≤ v.toNat ∧ v.toNat ≤ 0x7FFF)

/-- Every register but those listed is unchanged. -/
def SameRegsBut (ds : List Reg) (s t : State) : Prop := ∀ r, r ∉ ds → t.reg r = s.reg r

/-- Every cell of memory reads as before. -/
def SameMemory (s t : State) : Prop := ∀ a, t.cell a = s.cell a

/-- No input was taken and nothing was printed. -/
def SameConsole (s t : State) : Prop := t.conin = s.conin ∧ t.conout = s.conout

/-- The run state, the abort record and the place of an unfinished routine are unchanged. -/
def SameControl (s t : State) : Prop := t.run = s.run ∧ t.fault = s.fault ∧ t.suspended = s.suspended

/-- `dr` and the flags are written from `v`, and nothing else changes. -/
def OnlyDest (dr : Reg) (v : Word) (s t : State) : Prop :=
  t.reg dr = v ∧ FlagOf v t.cond ∧ SameRegsBut [dr] s t ∧ t.pc = s.pc ∧ SameMemory s t ∧ SameConsole s t ∧ SameControl s t

/-- `pc` is `target`, and nothing else changes. -/
def OnlyPc (target : Word) (s t : State) : Prop :=
  t.pc = target ∧ SameRegsBut [] s t ∧ t.cond = s.cond ∧ SameMemory s t ∧ SameConsole s t ∧ SameControl s t

/-- R7 is the old `pc`, `pc` is `target`, and nothing else changes. -/
def OnlyPcAndLink (target : Word) (s t : State) : Prop :=
  t.pc = target ∧ t.reg .r7 = s.pc ∧ SameRegsBut [.r7] s t ∧ t.cond = s.cond ∧ SameMemory s t ∧ SameConsole s t ∧
    SameControl s t

/-- The cell at `a` is `v`, and nothing else changes. -/
def OnlyCell (a v : Word) (s t : State) : Prop :=
  t.cell a = v ∧ (∀ b, b ≠ a → t.cell b = s.cell b) ∧ SameRegsBut [] s t ∧ t.cond = s.cond ∧ t.pc = s.pc ∧
    SameConsole s t ∧ SameControl s t

/-- `t` is `s₀` after loading into `dr` from `ea`, where `s` is the state in which the data is read: `dr` and the flags hold the word the
read gives, memory and input are as the read leaves them, and nothing else changes. Off 0xFE00 the word is the cell and the read
leaves everything as it was. -/
def LoadsFrom (dr : Reg) (ea : Word) (s₀ s t : State) : Prop :=
  t.reg dr = (memRead ea s).1 ∧ FlagOf (memRead ea s).1 t.cond ∧ SameRegsBut [dr] s₀ t ∧ t.pc = s₀.pc ∧
    SameMemory (memRead ea s).2 t ∧ t.conin = (memRead ea s).2.conin ∧ t.conout = s₀.conout ∧ SameControl s₀ t ∧
    (ea ≠ kbsr → t.reg dr = s.cell ea ∧ SameMemory s t ∧ t.conin = s.conin)

/-- `r` is what a store of `v` to `ea` answers in `s`: away from the two keyboard addresses a next state in which only that cell changed;
at them what the open parameter `DEV_WRITE` says (R46). -/
def StoresTo (ea v : Word) (s : State) (r : Result) : Prop :=
  (ea ≠ kbsr → ea ≠ kbdr → ∃ t, r = .next t ∧ OnlyCell ea v s t) ∧
  (ea = kbsr ∨ ea = kbdr →
    r = if Config.machine.devWrite = .refuse then .refused (.deviceWrite ea) else .next (s.storeCell ea v))

/-- R7 is the old `pc`, the console output grew by `es`, the routine completed, and nothing else changes. -/
def OnlyLinkAndOutput (es : List ConEvent) (s t : State) : Prop :=
  t.reg .r7 = s.pc ∧ t.conout = s.conout ++ es ∧ SameRegsBut [.r7] s t ∧ t.cond = s.cond ∧ t.pc = s.pc ∧ SameMemory s t ∧
    t.conin = s.conin ∧ t.run = s.run ∧ t.fault = s.fault ∧ t.suspended = none

/-- The character `b` was taken into R0, zero-extended, with the flags from it; R7 is the old `pc`; the console output grew by `es`; the
routine completed; nothing else changes. -/
def OnlyCharacterTaken (b : Byte) (rest : List Byte) (es : List ConEvent) (s t : State) : Prop :=
  t.reg .r0 = BitVec.ofNat 16 b.toNat ∧ FlagOf (BitVec.ofNat 16 b.toNat) t.cond ∧ t.cond ≠ .neg ∧ t.reg .r7 = s.pc ∧
    SameRegsBut [.r0, .r7] s t ∧ t.conin = rest ∧ t.conout = s.conout ++ es ∧ t.pc = s.pc ∧ SameMemory s t ∧
    t.run = s.run ∧ t.fault = s.fault ∧ t.suspended = none

/-- R7 is the old `pc`, the console output grew by `es`, the routine stands at `w`, and nothing else changes. -/
def OnlyLinkAndWait (w : Suspended) (es : List ConEvent) (s t : State) : Prop :=
  t.suspended = some w ∧ t.reg .r7 = s.pc ∧ SameRegsBut [.r7] s t ∧ t.cond = s.cond ∧ t.pc = s.pc ∧ SameMemory s t ∧
    t.conin = s.conin ∧ t.conout = s.conout ++ es ∧ t.run = s.run ∧ t.fault = s.fault

/-- `ws` are the words of the string at `a`: none is 0x0000, and the word after them is. It has its terminator within the memory. -/
def StringAt (s : State) (a : Word) (ws : List Word) : Prop :=
  ws.length < 65536 ∧
  (∀ i w, ws[i]? = some w → s.cell (a + BitVec.ofNat 16 i) = w ∧ w ≠ 0) ∧
  s.cell (a + BitVec.ofNat 16 ws.length) = 0

/-- No word of the string at `a`, nor its terminator, lies at 0xFE00. -/
def AvoidsKbsr (a : Word) (ws : List Word) : Prop := ∀ i, i ≤ ws.length → a + BitVec.ofNat 16 i ≠ kbsr

/-- What PUTS prints for a word: its low byte. -/
def putsEvents (ws : List Word) : List ConEvent := ws.map fun w => .byte (BitVec.ofNat 8 w.toNat)

/-- What PUTSP prints for words: low byte, high byte if it is not 0x00, flush, for each. -/
def putspEvents (ws : List Word) : List ConEvent :=
  ws.flatMap fun w =>
    [.byte (BitVec.ofNat 8 w.toNat)] ++
    (if w.toNat / 256 = 0 then [] else [.byte (BitVec.ofNat 8 (w.toNat / 256))]) ++ [.flush]

/-- The `n` words from `a` on, wrapping. -/
def wordsFrom (s : State) (a : Word) (n : Nat) : List Word := (List.range n).map fun i => s.cell (a + BitVec.ofNat 16 i)

/-- A string routine has printed `es`, stands at `w`, and has changed nothing else. -/
def OnlyOutputAndStandsAt (w : Suspended) (es : List ConEvent) (s t : State) : Prop :=
  t.suspended = some w ∧ t.conout = s.conout ++ es ∧ SameRegsBut [] s t ∧ t.cond = s.cond ∧ t.pc = s.pc ∧ SameMemory s t ∧
    t.conin = s.conin ∧ t.run = s.run ∧ t.fault = s.fault

/-- One round of an unfinished routine; nothing where none is unfinished. -/
def goOn (c : Config) (s : State) : State :=
  match s.suspended with
  | some r => resumeRoutine c r s
  | none => s

/-- One round for each list of `arrivals`, the characters of which the host queues just before that round. -/
def rounds (c : Config) (arrivals : List (List Byte)) (s : State) : State :=
  match arrivals with
  | [] => s
  | bs :: rest => rounds c rest (goOn c (s.setConin (s.conin ++ bs)))

/-- `t` has the same run state and memory as `s`, and a routine stands at `w`. -/
def StillStandsAt (w : Suspended) (s t : State) : Prop := t.suspended = some w ∧ t.run = s.run ∧ SameMemory s t

/-- `i` is a store of the word `v` to the address `ea` in `s`, in any of the three forms (R130, R131, R132). -/
def IsStoreOf (i : Instr) (v ea : Word) (s : State) : Prop :=
  (∃ sr off, i = .st sr off ∧ v = s.reg sr ∧ ea = s.pcRelative off) ∨
  (∃ sr off, i = .sti sr off ∧ v = s.reg sr ∧ ea = (memRead (s.pcRelative off) s).1) ∨
  (∃ sr base off, i = .str sr base off ∧ v = s.reg sr ∧ ea = s.baseOffset base off)

/-- `i` is a load of `dr` from the address `ea` in `s`, in any of the three forms (R126, R127, R128). -/
def IsLoadOf (i : Instr) (dr : Reg) (ea : Word) (s : State) : Prop :=
  (∃ off, i = .ld dr off ∧ ea = s.pcRelative off) ∨
  (∃ off, i = .ldi dr off ∧ ea = (memRead (s.pcRelative off) s).1) ∨
  (∃ base off, i = .ldr dr base off ∧ ea = s.baseOffset base off)

/-- The register an instruction of R91's list writes and sets the flags from. -/
def flagDest (i : Instr) : Option Reg :=
  match i with
  | .addReg dr _ _ => some dr
  | .addImm dr _ _ => some dr
  | .andReg dr _ _ => some dr
  | .andImm dr _ _ => some dr
  | .not dr _ => some dr
  | .br _ _ => none
  | .jmp _ => none
  | .jsr _ => none
  | .jsrr _ => none
  | .ld dr _ => some dr
  | .ldi dr _ => some dr
  | .ldr dr _ _ => some dr
  | .lea dr _ => some dr
  | .st _ _ => none
  | .sti _ _ => none
  | .str _ _ _ => none
  | .trap v => if v = 0x20 ∨ v = 0x23 then some .r0 else none
  | .rti _ => none
  | .res _ => none

/-- The two bytes of a word in an image, high byte first (R192). -/
def imageBytes (ws : List Word) : List Byte :=
  ws.flatMap fun w => [BitVec.ofNat 8 (w.toNat / 256), BitVec.ofNat 8 w.toNat]

end Sys2Proof.Claims

open Sys2Proof Sys2Proof.Machine Sys2Proof.Claims

/-! ### Encoding -/

/-- The words of R72's pseudo-instructions and of NVM's own example (R73), written out, both ways; they rest on the spec's D1 and D2 (log
entry 2). -/
def Obligations.WrittenOutWordsDecode : Prop :=
  decode 0b1100000111000000 = .jmp .r7 ∧ decode 0b1111000000100000 = .trap 0x20 ∧
  decode 0b1111000000100001 = .trap 0x21 ∧ decode 0b1111000000100010 = .trap 0x22 ∧
  decode 0b1111000000100011 = .trap 0x23 ∧ decode 0b1111000000100100 = .trap 0x24 ∧
  decode 0b1111000000100101 = .trap 0x25 ∧ decode 0b0000000000000000 = .br 0 0 ∧
  decode 0b0001000000100000 = .addImm .r0 .r0 0 ∧
  encode (.jmp .r7) = 0xC1C0 ∧ encode (.trap 0x25) = 0xF025 ∧ encode (.br 0 0) = 0x0000 ∧
  encode (.addImm .r0 .r0 0) = 0x1020

/-- Every instruction, with every operand at every value, decodes back from its word. The encoder's ignored bits are the model's choice
(log entry 4). -/
def Obligations.DecodeOfEncodeIsTheInstruction : Prop := ∀ i : Instr, decode (encode i) = i

/-- Decoding is total and unambiguous (R65, on the spec's opcode numbers D1, log entry 2): every word is of exactly one of the nineteen rows, the row of the instruction it decodes to. -/
def Obligations.EveryWordIsOfExactlyOneRow : Prop :=
  opcodeTable.length = 19 ∧ ∀ w : Word, opcodeTable.filter (fun r => r.covers w) = [(decode w).row]

/-- Unused bits (R68, the spec's D4 and G9, log entry 4). The rows with unused bits (mask, match, the unused bits, their canonical value). Changing those bits does not change the
instruction, and the encoder writes the canonical value; in a word of any other row every bit is kept. -/
def Obligations.UnusedBitsAreIgnored : Prop :=
  (∀ row ∈ ([(0xF020, 0x1000, 0x0018, 0), (0xF020, 0x5000, 0x0018, 0), (0xF000, 0x9000, 0x003F, 0x003F),
             (0xF000, 0xC000, 0x0E3F, 0), (0xF800, 0x4000, 0x063F, 0), (0xF000, 0xF000, 0x0F00, 0)] :
              List (Word × Word × Word × Word)),
    ∀ w u : Word, w &&& row.1 = row.2.1 →
      decode (w ^^^ (u &&& row.2.2.1)) = decode w ∧ encode (decode w) = (w &&& ~~~ row.2.2.1) ||| row.2.2.2) ∧
  (∀ w : Word, w &&& 0xF020 ≠ 0x1000 → w &&& 0xF020 ≠ 0x5000 → w &&& 0xF000 ≠ 0x9000 → w &&& 0xF000 ≠ 0xC000 →
    w &&& 0xF800 ≠ 0x4000 → w &&& 0xF000 ≠ 0xF000 → encode (decode w) = w)

/-- The illegal words (R69, on the spec's opcode numbers D1, log entry 2) are exactly 0x8000–0x8FFF and 0xD000–0xDFFF, whatever the low 12 bits, and each ends in the fatal decode error,
which records the very word. -/
def Obligations.IllegalWordsAreRtiAndRes : Prop :=
  ∀ w : Word,
    ((decode w).legal = false ↔
      (0x8000 ≤ w.toNat ∧ w.toNat ≤ 0x8FFF) ∨ (0xD000 ≤ w.toNat ∧ w.toNat ≤ 0xDFFF)) ∧
    ((decode w).legal = false → ∀ s, exec (decode w) s = .next (raiseIllegalOpcode (s.pc - 1) w s))

/-- R16: sign extension by R16's formula, and its two's-complement reading, for every width 1 to 16. -/
def Obligations.SignExtensionKeepsTheValue : Prop :=
  ∀ (n : Nat) (v : Word), 1 ≤ n → n ≤ 16 →
    sext (v.setWidth n) =
      (if v.getLsbD (n - 1) then (0xFFFF#16 <<< n) ||| BitVec.ofNat 16 (v.toNat % 2 ^ n) else BitVec.ofNat 16 (v.toNat % 2 ^ n)) ∧
    (sext (v.setWidth n)).toInt = (v.setWidth n).toInt

/-- R66, R125: the value each immediate stands for, its range, and what it is added to, modulo 2^16. -/
def Obligations.OperandFormsAndAddresses : Prop :=
  (∀ imm5 : BitVec 5, immOperand imm5 = BitVec.ofInt 16 imm5.toInt ∧ -16 ≤ imm5.toInt ∧ imm5.toInt ≤ 15) ∧
  (∀ (s : State) (base : Reg) (off : BitVec 6),
    ((s.baseOffset base off).toNat : Int) = ((s.reg base).toNat + off.toInt) % 65536 ∧ -32 ≤ off.toInt ∧ off.toInt ≤ 31) ∧
  (∀ (s : State) (off : BitVec 9),
    ((s.pcRelative off).toNat : Int) = (s.pc.toNat + off.toInt) % 65536 ∧ -256 ≤ off.toInt ∧ off.toInt ≤ 255) ∧
  (∀ (s : State) (off : BitVec 11),
    ((s.pcRelative off).toNat : Int) = (s.pc.toNat + off.toInt) % 65536 ∧ -1024 ≤ off.toInt ∧ off.toInt ≤ 1023)

/-! ### State and flags -/

/-- The reset table (R36). The input queue is whatever the host has queued at launch (D9, log entry 9); the flag's code is D3's (log entry 3). -/
def Obligations.ResetIsTheTable : Prop :=
  ∀ input : List Byte,
    (∀ r, (State.reset.setConin input).reg r = 0) ∧ (State.reset.setConin input).pc = 0x3000 ∧
    (State.reset.setConin input).cond = .zero ∧ (State.reset.setConin input).cond.bits = 0b010 ∧
    (State.reset.setConin input).run = .run ∧ (State.reset.setConin input).fault = none ∧
    (∀ a, (State.reset.setConin input).cell a = 0) ∧ (State.reset.setConin input).conin = input ∧
    (State.reset.setConin input).conout = []

/-- R90: `SetFlags(i)` gives the flag of the register's current value, exactly one, and changes nothing else. -/
def Obligations.SetFlagsMatchesTheRegister : Prop :=
  ∀ (i : Reg) (s : State),
    FlagOf (s.reg i) (setFlags i s).cond ∧ (∃! f, FlagOf (s.reg i) f) ∧ setFlags i s = { s with cond := (setFlags i s).cond }

/-- R91's list, with GETC and IN on it and the link writes off it (the spec's C1 and C8, log entry 22): a listed instruction leaves the
flag of the register it wrote; nothing else changes `cond`. That GETC or IN on an empty queue answers a next state, with `cond` unchanged,
is the model's rendering of the wait of R184 (log entry 11, DESIGN CHOICE), not R91's. -/
def Obligations.OnlyTheListedInstructionsChangeFlags : Prop :=
  ∀ (i : Instr) (s t : State), exec i s = .next t →
    (flagDest i = none → t.cond = s.cond) ∧
    (∀ r, flagDest i = some r → FlagOf (t.reg r) t.cond ∨
      ((i = .trap 0x20 ∨ i = .trap 0x23) ∧ s.conin = [] ∧ t.cond = s.cond))

/-! ### ADD, AND, NOT -/

/-- R93, with its encoding.
Opcode number and field places: the spec's D1 and D2 (log entry 2). -/
def Obligations.AddRegisterWritesTheWrappedSum : Prop :=
  ∀ (dr sr1 sr2 : Reg) (x : BitVec 2),
    decode (0b0001#4 ++ dr.bits ++ sr1.bits ++ 0#1 ++ x ++ sr2.bits) = .addReg dr sr1 sr2 ∧
    ∀ s, ∃ t, exec (.addReg dr sr1 sr2) s = .next t ∧
      OnlyDest dr (BitVec.ofNat 16 ((s.reg sr1).toNat + (s.reg sr2).toNat)) s t

/-- R94, with its encoding.
Opcode number and field places: the spec's D1 and D2 (log entry 2). -/
def Obligations.AddImmediateWritesTheWrappedSum : Prop :=
  ∀ (dr sr1 : Reg) (imm5 : BitVec 5),
    decode (0b0001#4 ++ dr.bits ++ sr1.bits ++ 1#1 ++ imm5) = .addImm dr sr1 imm5 ∧
    ∀ s, ∃ t, exec (.addImm dr sr1 imm5) s = .next t ∧
      OnlyDest dr (BitVec.ofInt 16 ((s.reg sr1).toNat + imm5.toInt)) s t

/-- R95, with its encoding: bit by bit.
Opcode number and field places: the spec's D1 and D2 (log entry 2). -/
def Obligations.AndRegisterWritesTheConjunction : Prop :=
  ∀ (dr sr1 sr2 : Reg) (x : BitVec 2),
    decode (0b0101#4 ++ dr.bits ++ sr1.bits ++ 0#1 ++ x ++ sr2.bits) = .andReg dr sr1 sr2 ∧
    ∀ s, ∃ t v, exec (.andReg dr sr1 sr2) s = .next t ∧ OnlyDest dr v s t ∧
      ∀ i, v.getLsbD i = ((s.reg sr1).getLsbD i && (s.reg sr2).getLsbD i)

/-- R96, with its encoding: the immediate is sign-extended before the AND.
Opcode number and field places: the spec's D1 and D2 (log entry 2). -/
def Obligations.AndImmediateWritesTheConjunction : Prop :=
  ∀ (dr sr1 : Reg) (imm5 : BitVec 5),
    decode (0b0101#4 ++ dr.bits ++ sr1.bits ++ 1#1 ++ imm5) = .andImm dr sr1 imm5 ∧
    ∀ s, ∃ t v, exec (.andImm dr sr1 imm5) s = .next t ∧ OnlyDest dr v s t ∧
      ∀ i, i < 16 → v.getLsbD i = ((s.reg sr1).getLsbD i && if i < 5 then imm5.getLsbD i else imm5.getLsbD 4)

/-- R97, with its encoding: 0xFFFF minus the source.
Opcode number and field places: the spec's D1 and D2 (log entry 2). -/
def Obligations.NotWritesTheComplement : Prop :=
  ∀ (dr sr1 : Reg) (x : BitVec 6),
    decode (0b1001#4 ++ dr.bits ++ sr1.bits ++ x) = .not dr sr1 ∧
    ∀ s, ∃ t, exec (.not dr sr1) s = .next t ∧ OnlyDest dr (BitVec.ofNat 16 (0xFFFF - (s.reg sr1).toNat)) s t

/-- R98: the two modes agree when the register operand equals the sign-extended immediate. -/
def Obligations.ModesAgreeOnEqualOperands : Prop :=
  ∀ (dr sr1 sr2 : Reg) (k : BitVec 5) (s : State), (s.reg sr2).toInt = k.toInt →
    exec (.addReg dr sr1 sr2) s = exec (.addImm dr sr1 k) s ∧ exec (.andReg dr sr1 sr2) s = exec (.andImm dr sr1 k) s

/-! ### BR, JMP, JSR, JSRR -/

/-- R110, with its encoding. Opcode number, field places and the order of the mask bits: the spec's D1, D2 and D3 (log entries 2, 3). -/
def Obligations.BranchTakenExactlyWhenTheMaskNamesTheFlag : Prop :=
  ∀ (n z p : BitVec 1) (off : BitVec 9),
    decode (0b0000#4 ++ n ++ z ++ p ++ off) = .br (n ++ z ++ p) off ∧
    ∀ s, ∃ t, exec (.br (n ++ z ++ p) off) s = .next t ∧
      OnlyPc (if (n = 1 ∧ s.cond = .neg) ∨ (z = 1 ∧ s.cond = .zero) ∨ (p = 1 ∧ s.cond = .pos)
        then BitVec.ofInt 16 (s.pc.toNat + off.toInt) else s.pc) s t

/-- R111, with its encoding, and R112: RET is JMP R7, the word 0xC1C0. Opcode number and field places: the spec's D1 and D2
(log entry 2). -/
def Obligations.JumpGoesToTheBaseRegister : Prop :=
  decode 0xC1C0 = .jmp .r7 ∧
  ∀ (base : Reg) (hi : BitVec 3) (lo : BitVec 6),
    decode (0b1100#4 ++ hi ++ base.bits ++ lo) = .jmp base ∧
    ∀ s, ∃ t, exec (.jmp base) s = .next t ∧ OnlyPc (s.reg base) s t

/-- R113, with its encoding.
Opcode number and field places: the spec's D1 and D2 (log entry 2). -/
def Obligations.CallLinksThenGoesPcRelative : Prop :=
  ∀ off : BitVec 11,
    decode (0b0100#4 ++ 1#1 ++ off) = .jsr off ∧
    ∀ s, ∃ t, exec (.jsr off) s = .next t ∧ OnlyPcAndLink (BitVec.ofInt 16 (s.pc.toNat + off.toInt)) s t

/-- R114, with its encoding: the link is written first, so `JSRR R7` falls through.
Opcode number and field places: the spec's D1 and D2 (log entry 2). -/
def Obligations.CallThroughRegisterLinksFirst : Prop :=
  ∀ (base : Reg) (hi : BitVec 2) (lo : BitVec 6),
    decode (0b0100#4 ++ 0#1 ++ hi ++ base.bits ++ lo) = .jsrr base ∧
    ∀ s, ∃ t, exec (.jsrr base) s = .next t ∧ OnlyPcAndLink (if base = .r7 then s.pc else s.reg base) s t

/-- R115: a call, then a jump through an unchanged R7, goes to the address after the call. NVM's quoted law speaks of JSR; that JSRR with
another base than R7 obeys it is the spec's own inference. The address of the call is `s.fetchAddress` (log entry 7). -/
def Obligations.CallThenReturnRoundTrip : Prop :=
  ∀ (s t u v : State),
    ((∃ off, exec (.jsr off) s = .next t) ∨ (∃ base, base ≠ .r7 ∧ exec (.jsrr base) s = .next t)) →
    u.reg .r7 = t.reg .r7 → exec (.jmp .r7) u = .next v → v.pc = s.pc ∧ v.pc = s.fetchAddress + 1

/-! ### The memory primitives and the keyboard -/

/-- Reads (R41, R42; the low bits of the status word are the spec's D8, log entry 8): a read off 0xFE00 gives the cell and changes nothing; at 0xFE00 it polls, and only the two keyboard cells and the head of the
queue change. -/
def Obligations.ReadsAndTheKeyboardIntercept : Prop :=
  ∀ s : State, Memory.wf s.mem = true →
    (∀ a, a ≠ kbsr → memRead a s = (s.cell a, s)) ∧
    (s.conin = [] → (memRead kbsr s).1 = 0x0000 ∧ OnlyCell kbsr 0x0000 s (memRead kbsr s).2) ∧
    (∀ c rest, s.conin = c :: rest →
      (memRead kbsr s).1 = 0x8000 ∧ (memRead kbsr s).2.cell kbsr = 0x8000 ∧
      (memRead kbsr s).2.cell kbdr = BitVec.ofNat 16 c.toNat ∧ (memRead kbsr s).2.conin = rest ∧
      (∀ a, a ≠ kbsr → a ≠ kbdr → (memRead kbsr s).2.cell a = s.cell a) ∧
      SameRegsBut [] s (memRead kbsr s).2 ∧ (memRead kbsr s).2.pc = s.pc ∧ (memRead kbsr s).2.cond = s.cond ∧
      (memRead kbsr s).2.conout = s.conout ∧ SameControl s (memRead kbsr s).2)

/-- The status address read twice in succession (R44, with D8's value of the status word, log entry 8). -/
def Obligations.StatusReadTwice : Prop :=
  ∀ s : State, Memory.wf s.mem = true →
    (s.conin = [] → (memRead kbsr s).1 = 0 ∧ (memRead kbsr (memRead kbsr s).2).1 = 0) ∧
    (∀ c, s.conin = [c] →
      (memRead kbsr s).1 = 0x8000 ∧ (memRead kbsr (memRead kbsr s).2).1 = 0 ∧
      (memRead kbsr (memRead kbsr s).2).2.cell kbdr = BitVec.ofNat 16 c.toNat) ∧
    (∀ c d rest, s.conin = c :: d :: rest →
      (memRead kbsr s).1 = 0x8000 ∧ (memRead kbsr (memRead kbsr s).2).1 = 0x8000 ∧
      (memRead kbsr (memRead kbsr s).2).2.cell kbdr = BitVec.ofNat 16 d.toNat ∧
      (memRead kbsr (memRead kbsr s).2).2.conin = rest)

/-- Writes (R45, R46; the two behaviours at the keyboard addresses are the spec's D15, log entry 14): a write stores the word and nothing else; at the two keyboard addresses it does so under `store` and is refused under
`refuse`. -/
def Obligations.WritesStoreOrFollowDevWrite : Prop :=
  ∀ (c : Config) (a v : Word) (s : State), Memory.wf s.mem = true →
    (a ≠ kbsr → a ≠ kbdr → ∃ t, memWrite c a v s = .next t ∧ OnlyCell a v s t) ∧
    (a = kbsr ∨ a = kbdr → c.devWrite = .store → ∃ t, memWrite c a v s = .next t ∧ OnlyCell a v s t) ∧
    (a = kbsr ∨ a = kbdr → c.devWrite = .refuse → memWrite c a v s = .refused (.deviceWrite a))

/-! ### Loads, LEA, stores -/

/-- R126, with its encoding.
Opcode number and field places: the spec's D1 and D2 (log entry 2). -/
def Obligations.LoadReadsPcRelative : Prop :=
  ∀ (dr : Reg) (off : BitVec 9),
    decode (0b0010#4 ++ dr.bits ++ off) = .ld dr off ∧
    ∀ s, s.pcRelative off = BitVec.ofInt 16 (s.pc.toNat + off.toInt) ∧
      ∃ t, exec (.ld dr off) s = .next t ∧ LoadsFrom dr (s.pcRelative off) s s t

/-- R127, with its encoding: the pointer read first, then the data read in the state it left.
Opcode number and field places: the spec's D1 and D2 (log entry 2). -/
def Obligations.LoadIndirectReadsTwice : Prop :=
  ∀ (dr : Reg) (off : BitVec 9),
    decode (0b1010#4 ++ dr.bits ++ off) = .ldi dr off ∧
    ∀ s, s.pcRelative off = BitVec.ofInt 16 (s.pc.toNat + off.toInt) ∧
      ∃ t, exec (.ldi dr off) s = .next t ∧
        LoadsFrom dr (memRead (s.pcRelative off) s).1 s (memRead (s.pcRelative off) s).2 t ∧
        (s.pcRelative off ≠ kbsr → s.cell (s.pcRelative off) ≠ kbsr →
          t.reg dr = s.cell (s.cell (s.pcRelative off)) ∧ SameMemory s t ∧ t.conin = s.conin)

/-- R128, with its encoding: the address is formed from the old base.
Opcode number and field places: the spec's D1 and D2 (log entry 2). -/
def Obligations.LoadReadsBasePlusOffset : Prop :=
  ∀ (dr base : Reg) (off : BitVec 6),
    decode (0b0110#4 ++ dr.bits ++ base.bits ++ off) = .ldr dr base off ∧
    ∀ s, s.baseOffset base off = BitVec.ofInt 16 ((s.reg base).toNat + off.toInt) ∧
      ∃ t, exec (.ldr dr base off) s = .next t ∧ LoadsFrom dr (s.baseOffset base off) s s t

/-- R129, with its encoding: the address itself, with flags, and no access.
Opcode number and field places: the spec's D1 and D2 (log entry 2). -/
def Obligations.LeaWritesTheAddress : Prop :=
  ∀ (dr : Reg) (off : BitVec 9),
    decode (0b1110#4 ++ dr.bits ++ off) = .lea dr off ∧
    ∀ s, ∃ t, exec (.lea dr off) s = .next t ∧ OnlyDest dr (BitVec.ofInt 16 (s.pc.toNat + off.toInt)) s t

/-- R130, with its encoding.
Opcode number and field places: the spec's D1 and D2 (log entry 2). -/
def Obligations.StoreWritesPcRelative : Prop :=
  ∀ (sr : Reg) (off : BitVec 9),
    decode (0b0011#4 ++ sr.bits ++ off) = .st sr off ∧
    ∀ s, Memory.wf s.mem = true →
      s.pcRelative off = BitVec.ofInt 16 (s.pc.toNat + off.toInt) ∧
      StoresTo (s.pcRelative off) (s.reg sr) s (exec (.st sr off) s)

/-- R131, with its encoding: the pointer read, with intercept, then the write in the state it left.
Opcode number and field places: the spec's D1 and D2 (log entry 2). -/
def Obligations.StoreIndirectWritesThroughThePointer : Prop :=
  ∀ (sr : Reg) (off : BitVec 9),
    decode (0b1011#4 ++ sr.bits ++ off) = .sti sr off ∧
    ∀ s, Memory.wf s.mem = true →
      s.pcRelative off = BitVec.ofInt 16 (s.pc.toNat + off.toInt) ∧
      StoresTo (memRead (s.pcRelative off) s).1 (s.reg sr) (memRead (s.pcRelative off) s).2 (exec (.sti sr off) s) ∧
      (s.pcRelative off ≠ kbsr → StoresTo (s.cell (s.pcRelative off)) (s.reg sr) s (exec (.sti sr off) s))

/-- R132, with its encoding.
Opcode number and field places: the spec's D1 and D2 (log entry 2). -/
def Obligations.StoreWritesBasePlusOffset : Prop :=
  ∀ (sr base : Reg) (off : BitVec 6),
    decode (0b0111#4 ++ sr.bits ++ base.bits ++ off) = .str sr base off ∧
    ∀ s, Memory.wf s.mem = true →
      s.baseOffset base off = BitVec.ofInt 16 ((s.reg base).toNat + off.toInt) ∧
      StoresTo (s.baseOffset base off) (s.reg sr) s (exec (.str sr base off) s)

/-- Double indirection (R133, the spec's own inference from R127 and R41): the value is the read of the read, and in plain cells the cell
of the cell. That LDI is LD followed by a load through what LD loaded, as whole states, goes beyond R133: it follows from R126, R127 and
R128. -/
def Obligations.DoubleIndirection : Prop :=
  ∀ (dr : Reg) (off : BitVec 9) (s : State),
    ∃ u t, exec (.ld dr off) s = .next u ∧ exec (.ldr dr dr 0) u = .next t ∧ exec (.ldi dr off) s = .next t ∧
      t.reg dr = (memRead (memRead (s.pcRelative off) s).1 (memRead (s.pcRelative off) s).2).1 ∧
      (s.pcRelative off ≠ kbsr → s.cell (s.pcRelative off) ≠ kbsr → t.reg dr = s.cell (s.cell (s.pcRelative off)))

/-- R134's last sentence: a load of a just stored address gives the stored word, for every form of the store and of the load and every
address but 0xFE00. At 0xFE02 a store is either refused, under `DEV_WRITE = refuse`, or the same holds (the spec's D15, log entry 14). The
load runs in any state with the memory the store left. -/
def Obligations.LoadAfterStoreGivesTheStoredWord : Prop :=
  ∀ (i : Instr) (v ea : Word) (s : State), Memory.wf s.mem = true → IsStoreOf i v ea s → ea ≠ kbsr →
    (∃ t, exec i s = .next t ∧ ∀ (j : Instr) (dr : Reg) (u : State), SameMemory t u → IsLoadOf j dr ea u →
      ∃ w, exec j u = .next w ∧ w.reg dr = v) ∨
    (ea = kbdr ∧ Config.machine.devWrite = .refuse ∧ exec i s = .refused (.deviceWrite kbdr))

/-- R43's consequence (the spec's D8, log entry 8): LDI through a cell that holds 0xFE00 sets NEG when a character was pending and ZERO when not. -/
def Obligations.PollingThroughLdi : Prop :=
  ∀ (dr : Reg) (off : BitVec 9) (s : State), Memory.wf s.mem = true →
    s.pcRelative off ≠ kbsr → s.cell (s.pcRelative off) = kbsr →
    ∃ t, exec (.ldi dr off) s = .next t ∧
      (s.conin = [] → t.reg dr = 0x0000 ∧ t.cond = .zero ∧ t.conin = []) ∧
      (∀ c rest, s.conin = c :: rest →
        t.reg dr = 0x8000 ∧ t.cond = .neg ∧ t.cell kbdr = BitVec.ofNat 16 c.toNat ∧ t.conin = rest)

/-! ### TRAP and the trap unit -/

/-- TRAP (R145; D1, D4, D14, D24, log entries 2, 4, 13, 20): every vector links, leaves `pc` at `A + 1`, and completes or waits; bits 11 to
8 are ignored. The frame: of memory and the input queue only what GETC and IN take, and, where the open parameter has strings read
through the intercept, what one read of 0xFE00 changes; output only grows, and only by the six routines' own.
That EVERY vector answers a next state is the model's rendering: GETC and IN on an empty queue, where R184 has the step wait (D11, log entry
11, DESIGN CHOICE), and PUTS and PUTSP of a string with no terminator, where R149 and R150 have it never complete (D22, log entry 16, DESIGN
CHOICE). -/
def Obligations.TrapLinksForEveryVector : Prop :=
  ∀ (x : BitVec 4) (v : BitVec 8),
    decode (0b1111#4 ++ x ++ v) = .trap v ∧
    ∀ s, ∃ t, exec (.trap v) s = .next t ∧ t.reg .r7 = s.pc ∧ t.pc = s.pc ∧ SameRegsBut [.r0, .r7] s t ∧
      t.fault = s.fault ∧ (v ≠ 0x20 → v ≠ 0x23 → t.reg .r0 = s.reg .r0 ∧ t.cond = s.cond) ∧
      (v ≠ 0x25 → t.run = s.run) ∧
      (∀ a, a ≠ kbsr → a ≠ kbdr → t.cell a = s.cell a) ∧
      (Config.machine.trapStringIntercept = false ∨ (v ≠ 0x22 ∧ v ≠ 0x24) → SameMemory s t) ∧
      (v = 0x20 ∨ v = 0x23 → t.conin = s.conin.tail) ∧
      (v ≠ 0x20 → v ≠ 0x23 →
        (SameMemory s t ∧ t.conin = s.conin) ∨
        (Config.machine.trapStringIntercept = true ∧ (v = 0x22 ∨ v = 0x24) ∧
          SameMemory (memRead kbsr s).2 t ∧ t.conin = (memRead kbsr s).2.conin)) ∧
      s.conout <+: t.conout ∧ (v.toNat ≤ 0x20 ∨ 0x25 < v.toNat → t.conout = s.conout) ∧
      (v.toNat < 0x20 ∨ 0x25 < v.toNat ∨ v = 0x21 ∨ v = 0x25 → t.suspended = s.suspended)

/-- GETC (R147; zero extension is the spec's D10, log entry 10), and where it waits (R184; the wait is held in `suspended`, log entry 11). -/
def Obligations.GetcTakesACharacterOrWaits : Prop :=
  ∀ s : State,
    (∀ c rest, s.conin = c :: rest →
      ∃ t, exec (.trap 0x20) s = .next t ∧ OnlyCharacterTaken c rest [] s t) ∧
    (s.conin = [] → ∃ t, exec (.trap 0x20) s = .next t ∧ OnlyLinkAndWait .getcWaits [] s t)

/-- R148. -/
def Obligations.OutWritesTheLowByte : Prop :=
  ∀ s : State, s.suspended = none →
    ∃ t, exec (.trap 0x21) s = .next t ∧
      OnlyLinkAndOutput [.byte (BitVec.ofNat 8 (s.reg .r0).toNat), .flush] s t

/-- PUTS (R149; the spec's D5, D14, D22, D23, log entries 13, 16, 20), for a string with a terminator: over 0xFE00 too where the open parameter has the words read straight. -/
def Obligations.PutsPrintsUpToTheZeroWord : Prop :=
  ∀ (s : State) (ws : List Word), StringAt s (s.reg .r0) ws →
    (Config.machine.trapStringIntercept = false ∨ AvoidsKbsr (s.reg .r0) ws) →
    ∃ t, exec (.trap 0x22) s = .next t ∧ OnlyLinkAndOutput (putsEvents ws ++ [.flush]) s t

/-- PUTSP (R150; decisions as for PUTS), for a string with a terminator. -/
def Obligations.PutspPrintsPackedCharacters : Prop :=
  ∀ (s : State) (ws : List Word), StringAt s (s.reg .r0) ws →
    (Config.machine.trapStringIntercept = false ∨ AvoidsKbsr (s.reg .r0) ws) →
    ∃ t, exec (.trap 0x24) s = .next t ∧ OnlyLinkAndOutput (putspEvents ws) s t

/-- String reads (R54, the spec's D14, log entry 13): how a string word is read under the two values of the open parameter, and what that does to a PUTS that meets 0xFE00 with no
input pending. -/
def Obligations.StringWordsAtTheStatusAddress : Prop :=
  ∀ (c : Config) (s : State),
    (∀ a, c.trapStringIntercept = false → strRead c a s = (s.cell a, s)) ∧
    (∀ a, c.trapStringIntercept = true → strRead c a s = memRead a s) ∧
    (∀ ws : List Word, ws.length < 65536 → c.trapStringIntercept = true → s.conin = [] →
      (∀ i w, ws[i]? = some w → s.cell (s.reg .r0 + BitVec.ofNat 16 i) = w ∧ w ≠ 0 ∧ s.reg .r0 + BitVec.ofNat 16 i ≠ kbsr) →
      s.reg .r0 + BitVec.ofNat 16 ws.length = kbsr →
      (putsRoutine c s).conout = s.conout ++ putsEvents ws ++ [.flush] ∧ (putsRoutine c s).suspended = none)

/-- The spec's D22, as the model renders it (log entry 16): a string with no terminator, read straight, never completes. PUTS and PUTSP
print all 65,536 words, stand where they began, and change nothing else; so does every later round; and after any number of rounds, with
whatever input arriving before each, they still stand there, in the same run state and memory. In RUN a round is a step. -/
def Obligations.UnterminatedStringNeverCompletes : Prop :=
  (∀ s, exec (.trap 0x22) s = .next (putsRoutine Config.machine s.link) ∧
    exec (.trap 0x24) s = .next (putspRoutine Config.machine s.link)) ∧
  (∀ s, s.run = .run → s.suspended.isSome = true → step s = .next (goOn Config.machine s)) ∧
  ∀ (c : Config) (s : State), c.trapStringIntercept = false → (∀ a, s.cell a ≠ 0) →
    OnlyOutputAndStandsAt (.putsAt (s.reg .r0)) (putsEvents (wordsFrom s (s.reg .r0) 65536)) s (putsRoutine c s) ∧
    OnlyOutputAndStandsAt (.putspAt (s.reg .r0)) (putspEvents (wordsFrom s (s.reg .r0) 65536)) s (putspRoutine c s) ∧
    (∀ a, OnlyOutputAndStandsAt (.putsAt a) (putsEvents (wordsFrom s a 65536)) s (resumeRoutine c (.putsAt a) s)) ∧
    (∀ a, OnlyOutputAndStandsAt (.putspAt a) (putspEvents (wordsFrom s a 65536)) s (resumeRoutine c (.putspAt a) s)) ∧
    ∀ arrivals,
      StillStandsAt (.putsAt (s.reg .r0)) s (rounds c arrivals (putsRoutine c s)) ∧
      StillStandsAt (.putspAt (s.reg .r0)) s (rounds c arrivals (putspRoutine c s))

/-- IN (R151; the spec's D10, D12, log entries 10, 12), and where it waits: the prompt is out before the wait (R184, log entry 11). -/
def Obligations.InPromptsThenTakesACharacter : Prop :=
  ∀ s : State,
    (∀ c rest, s.conin = c :: rest →
      ∃ t, exec (.trap 0x23) s = .next t ∧
        OnlyCharacterTaken c rest (Config.machine.inPrompt.map .byte ++ [.flush, .byte c, .flush]) s t) ∧
    (s.conin = [] →
      ∃ t, exec (.trap 0x23) s = .next t ∧ OnlyLinkAndWait .inWaits (Config.machine.inPrompt.map .byte ++ [.flush]) s t)

/-- HALT (R152; the run state and the notice are the spec's D6 and D13, log entries 6, 12). -/
def Obligations.HaltWritesTheNoticeAndHalts : Prop :=
  ∀ s : State,
    ∃ t, exec (.trap 0x25) s = .next t ∧ t.run = .halted ∧ t.running = false ∧ t.conout = s.conout ++ Config.machine.haltNotice.map .byte ++ [.flush] ∧
      t.reg .r7 = s.pc ∧ SameRegsBut [.r7] s t ∧ t.cond = s.cond ∧ t.pc = s.pc ∧ SameMemory s t ∧ t.conin = s.conin ∧
      t.fault = s.fault ∧ t.suspended = s.suspended

/-- R153: a vector outside 0x20–0x25 writes R7 and does nothing else. -/
def Obligations.UndefinedVectorOnlyLinks : Prop :=
  ∀ (v : BitVec 8) (s : State), v.toNat < 0x20 ∨ 0x25 < v.toNat →
    ∃ t, exec (.trap v) s = .next t ∧ OnlyPcAndLink s.pc s t

/-- Waiting (R184, as the model renders it, log entry 11): while GETC or IN waits nothing changes, and a character that arrives during the wait has the effect it would have had, had it
been there before. -/
def Obligations.WaitChangesNothingAndArrivalCompletes : Prop :=
  ∀ (v : BitVec 8) (s : State) (b : Byte), v = 0x20 ∨ v = 0x23 → s.run = .run → s.suspended = none → s.conin = [] →
    ∃ t, exec (.trap v) s = .next t ∧ step t = .next t ∧ step (t.supply b) = exec (.trap v) (s.supply b)

/-! ### The exception, the step and the run -/

/-- The one exception (R154, R155, R172; opcode numbers, run state and record are the spec's D1, D6, D18, log entries 2, 6): RTI and RES record the address and the word and stop the machine; nothing else is written. -/
def Obligations.IllegalOpcodeAborts : Prop :=
  ∀ (low : BitVec 12) (s : State),
    decode (0b1000#4 ++ low) = .rti low ∧ decode (0b1101#4 ++ low) = .res low ∧
    (∃ t, exec (.rti low) s = .next t ∧ t.run = .aborted ∧ t.running = false ∧ t.fault = some ⟨s.pc - 1, BitVec.ofNat 16 (0x8000 + low.toNat)⟩ ∧
      SameRegsBut [] s t ∧ t.pc = s.pc ∧ t.cond = s.cond ∧ SameMemory s t ∧ SameConsole s t ∧ t.suspended = s.suspended) ∧
    (∃ t, exec (.res low) s = .next t ∧ t.run = .aborted ∧ t.running = false ∧ t.fault = some ⟨s.pc - 1, BitVec.ofNat 16 (0xD000 + low.toNat)⟩ ∧
      SameRegsBut [] s t ∧ t.pc = s.pc ∧ t.cond = s.cond ∧ SameMemory s t ∧ SameConsole s t ∧ t.suspended = s.suspended)

/-- The step (R170; the granularity is the spec's D7, log entry 7): in RUN, with no routine unfinished, a step runs the instruction its word decodes to, in the state with `pc` incremented. -/
def Obligations.StepRunsTheDecodedInstruction : Prop :=
  ∀ (s : State) (i : Instr), s.run = .run → s.suspended = none →
    (s.pc ≠ kbsr → decode (s.cell s.pc) = i → step s = exec i (s.setPc (s.pc + 1))) ∧
    (decode (memRead s.pc s).1 = i → step s = exec i ((memRead s.pc s).2.setPc (s.pc + 1)))

/-- The instruction the host places is the one the next step runs (the model's own `withFetchWord`, log entry 18). -/
def Obligations.PlacedWordRunsNext : Prop :=
  ∀ (s : State) (w : Word), Memory.wf s.mem = true → s.pc ≠ kbsr →
    step (s.withFetchWord 16 w.toNat) = exec (decode w) ((s.withFetchWord 16 w.toNat).setPc (s.pc + 1))

/-- Fetch at 0xFE00 (R53's own inference; D1, D8, log entries 2, 8): a fetch at 0xFE00 runs the intercept and executes the status word: a never-taken BR, or an RTI.
Nothing else changes. -/
def Obligations.FetchAtTheStatusAddress : Prop :=
  ∀ s : State, Memory.wf s.mem = true → s.run = .run → s.suspended = none → s.pc = kbsr →
    (s.conin = [] → ∃ t, step s = .next t ∧ t.pc = 0xFE01 ∧ t.run = .run ∧ t.cell kbsr = 0 ∧
      (∀ a, a ≠ kbsr → t.cell a = s.cell a) ∧ SameRegsBut [] s t ∧ t.cond = s.cond ∧ SameConsole s t ∧ SameControl s t) ∧
    (∀ c rest, s.conin = c :: rest → ∃ t, step s = .next t ∧ t.pc = 0xFE01 ∧ t.run = .aborted ∧
      t.fault = some ⟨0xFE00, 0x8000⟩ ∧ t.cell kbsr = 0x8000 ∧ t.cell kbdr = BitVec.ofNat 16 c.toNat ∧ t.conin = rest ∧
      (∀ a, a ≠ kbsr → a ≠ kbdr → t.cell a = s.cell a) ∧ SameRegsBut [] s t ∧ t.cond = s.cond ∧ t.conout = s.conout ∧
      t.suspended = s.suspended)

/-- Fetch coherence (R58's own inference): a word stored over the next instruction is the one fetched next. -/
def Obligations.StoredWordIsFetchedNext : Prop :=
  ∀ (s : State) (sr : Reg), Memory.wf s.mem = true → s.run = .run → s.suspended = none →
    s.pc ≠ kbsr → s.pc + 1 ≠ kbsr → s.pc + 1 ≠ kbdr → s.cell s.pc = 0b0011#4 ++ sr.bits ++ 0#9 →
    ∃ t, step s = .next t ∧ t.pc = s.pc + 1 ∧ step t = exec (decode (s.reg sr)) (t.setPc (s.pc + 2))

/-- Terminal states (R186, as the model renders them, log entry 6): no step changes anything, and no run leaves it: the host can still queue input, and nothing reads it. -/
def Obligations.TerminalStatesAreForEver : Prop :=
  ∀ s : State, s.run ≠ .run → step s = .next s ∧ ∀ t, Reaches s t → t = s.setConin t.conin

/-- The run state (R30, R172, R174; D6, log entry 6): only HALT halts and only RTI and RES abort; a legal instruction leaves the abort record alone. -/
def Obligations.OnlyHaltHaltsAndOnlyIllegalAborts : Prop :=
  ∀ (i : Instr) (s t : State), s.run = .run → exec i s = .next t →
    (t.run = .halted ↔ i = .trap 0x25) ∧ (t.run = .aborted ↔ i.legal = false) ∧ (i.legal = true → t.fault = s.fault)

/-- What can stop (R46, R174; D15, log entry 14): a step answers a next state, or is refused for a store to a keyboard address under
`DEV_WRITE = refuse`; nothing else stops. Where the spec has no step, or one that does not complete, the next state is the model's
rendering (DESIGN CHOICE): in HALTED and ABORTED the same state (R186, D6, log entry 6), in a wait of GETC or IN the waiting state (R184,
D11, log entry 11), in a string with no terminator the routine suspended (R149, R150, D22, log entry 16). -/
def Obligations.OnlyKeyboardStoresStop : Prop :=
  ∀ s : State, (∃ t, step s = .next t) ∨
    (∃ a, (a = kbsr ∨ a = kbdr) ∧ Config.machine.devWrite = .refuse ∧ step s = .refused (.deviceWrite a))

/-- The invariant at reset. -/
def Obligations.ResetMeetsTheInvariant : Prop := State.reset.Inv

/-- Every step keeps the invariant, and so does an arriving character. -/
def Obligations.EveryStepKeepsTheInvariant : Prop :=
  (∀ s t : State, s.Inv → step s = .next t → t.Inv) ∧ (∀ (s : State) (b : Byte), s.Inv → (s.supply b).Inv)

/-- Console output (R34; the log of events is the spec's D16, log entry 15): what has been printed stays, whatever happens later, a fatal decode error included. -/
def Obligations.ConsoleOutputOnlyGrows : Prop :=
  ∀ s t : State, Reaches s t → s.conout <+: t.conout

/-- Console input (R33; the queue is the spec's D9, log entry 9): a step takes characters only from the head of the input queue; only a read of 0xFE00, GETC, IN and a string read can take any. -/
def Obligations.InputIsTakenFromTheHead : Prop :=
  (∀ s t : State, step s = .next t → t.conin <:+ s.conin) ∧
  (∀ (i : Instr) (s t : State), exec i s = .next t → t.conin ≠ s.conin →
    (∃ dr off, i = .ld dr off) ∨ (∃ dr off, i = .ldi dr off) ∨ (∃ dr base off, i = .ldr dr base off) ∨
    (∃ sr off, i = .sti sr off) ∨
    i = .trap 0x20 ∨ i = .trap 0x23 ∨
    (Config.machine.trapStringIntercept = true ∧ (i = .trap 0x22 ∨ i = .trap 0x24)))

/-! ### The loader and the launch -/

/-- The launch (R192, R195, R202; the preconditions are the spec's D20, log entry 17): one image of words `ws` at `origin` puts them there, leaves every other cell 0x0000, and the core still starts at
0x3000 with everything else at its reset value. -/
def Obligations.LaunchLoadsTheImage : Prop :=
  ∀ (origin : Word) (ws : List Word) (input : List Byte), origin.toNat + ws.length ≤ 65536 →
    ∃ s, launch [imageBytes (origin :: ws)] input = some s ∧
      (∀ i w, ws[i]? = some w → s.cell (origin + BitVec.ofNat 16 i) = w) ∧
      (∀ a : Word, a.toNat < origin.toNat ∨ origin.toNat + ws.length ≤ a.toNat → s.cell a = 0) ∧
      s.pc = 0x3000 ∧ (∀ r, s.reg r = 0) ∧ s.cond = .zero ∧ s.run = .run ∧ s.fault = none ∧ s.conin = input ∧ s.conout = []

/-- Every launch state, of any number of images, meets the invariant. -/
def Obligations.LaunchMeetsTheInvariant : Prop :=
  ∀ (images : List (List Byte)) (input : List Byte) (s : State), launch images input = some s →
    s.Inv ∧ s = { State.reset with mem := s.mem, conin := input }
end

