-- ==== Sys2Proof/Laws/Decode.lean ====
section
/-! SUPPORT. Fields and their places: the small lemmas of `slice` and `place`, and the register and opcode codes. -/

namespace Sys2Proof

@[simp] theorem Reg.ofBits_bits (r : Reg) : Reg.ofBits r.bits = r := by cases r <;> rfl

@[simp] theorem Reg.bits_ofBits (b : BitVec 3) : (Reg.ofBits b).bits = b := by
  revert b
  decide

@[simp] theorem Opcode.ofBits_bits (o : Opcode) : Opcode.ofBits o.bits = o := by cases o <;> rfl

@[simp] theorem Opcode.bits_ofBits (b : BitVec 4) : (Opcode.ofBits b).bits = b := by
  revert b
  decide

/-- A bit of a field is the bit of the word at its place. -/
theorem getLsbD_slice (lo n i : Nat) (w : Word) :
    (slice lo n w).getLsbD i = (decide (i < n) && w.getLsbD (lo + i)) := by
  simp [slice]

/-- A bit of a placed field. -/
theorem getLsbD_place {n : Nat} (lo i : Nat) (v : BitVec n) :
    (place lo v).getLsbD i = (decide (i < 16) && decide (lo ≤ i) && v.getLsbD (i - lo)) := by
  by_cases h : i < 16
  · by_cases h' : lo ≤ i
    · simp [place, h, h', Nat.not_lt.2 h']
    · simp [place, h, Nat.not_le.1 h']
  · simp [h, BitVec.getLsbD_of_ge (place lo v) i (Nat.not_lt.1 h)]

theorem slice_or (lo n : Nat) (a b : Word) : slice lo n (a ||| b) = slice lo n a ||| slice lo n b := by
  simp [slice, BitVec.extractLsb'_or]

/-- A field read where it was placed. -/
theorem slice_place_self {n : Nat} (lo : Nat) (v : BitVec n) (h : lo + n ≤ 16) : slice lo n (place lo v) = v := by
  apply BitVec.eq_of_getLsbD_eq
  intro i hi
  have h16 : lo + i < 16 := by omega
  rw [getLsbD_slice, getLsbD_place]
  simp [hi, h16]

/-- A field read where another was placed. -/
theorem slice_place_ne {n : Nat} (lo lo' n' : Nat) (v : BitVec n) (h : lo + n ≤ lo' ∨ lo' + n' ≤ lo) :
    slice lo' n' (place lo v) = 0 := by
  apply BitVec.eq_of_getLsbD_eq
  intro i hi
  rcases h with h | h
  · have : v.getLsbD (lo' + i - lo) = false := BitVec.getLsbD_of_ge v _ (by omega)
    simp [getLsbD_slice, getLsbD_place, this]
  · have : ¬ lo ≤ lo' + i := by omega
    simp [getLsbD_slice, getLsbD_place, this]

/-- Two adjoining fields that fill a word, as a word of two placed fields: how R64's rows, written out with `++`, meet `slice`. -/
theorem append_eq_place {p q : Nat} (h : p + q = 16) (a : BitVec p) (b : BitVec q) :
    (a ++ b).cast h = place q a ||| place 0 b := by
  apply BitVec.eq_of_getLsbD_eq
  intro i hi
  rw [BitVec.getLsbD_cast, BitVec.getLsbD_append, BitVec.getLsbD_or, getLsbD_place, getLsbD_place]
  by_cases hq : i < q
  · simp [hq, hi, Nat.not_le.2 hq]
  · simp [hq, hi, Nat.not_lt.1 hq]

/-- The opcode field of an encoded instruction. -/
theorem slice_opcode_encode (i : Instr) : slice 12 4 (encode i) = i.opcode.bits := by
  cases i <;>
    simp (disch := omega) [encode, operandBits, slice_or, slice_place_self, slice_place_ne]

end Sys2Proof
end

