-- ==== Sys2Proof/Laws/State.lean ====
section
/-! SUPPORT. One lemma per field per update of the state, and the register file's read after write; true by unfolding, so that no later
proof unfolds a record update. -/

namespace Sys2Proof.Machine

variable (s : State)

/-! ### setReg -/

@[simp] theorem State.regs_setReg (r : Reg) (v : Word) : (s.setReg r v).regs = s.regs.set r v := rfl
@[simp] theorem State.pc_setReg (r : Reg) (v : Word) : (s.setReg r v).pc = s.pc := rfl
@[simp] theorem State.cond_setReg (r : Reg) (v : Word) : (s.setReg r v).cond = s.cond := rfl
@[simp] theorem State.run_setReg (r : Reg) (v : Word) : (s.setReg r v).run = s.run := rfl
@[simp] theorem State.fault_setReg (r : Reg) (v : Word) : (s.setReg r v).fault = s.fault := rfl
@[simp] theorem State.mem_setReg (r : Reg) (v : Word) : (s.setReg r v).mem = s.mem := rfl
@[simp] theorem State.conin_setReg (r : Reg) (v : Word) : (s.setReg r v).conin = s.conin := rfl
@[simp] theorem State.conout_setReg (r : Reg) (v : Word) : (s.setReg r v).conout = s.conout := rfl
@[simp] theorem State.suspended_setReg (r : Reg) (v : Word) : (s.setReg r v).suspended = s.suspended := rfl

/-! ### setPc -/

@[simp] theorem State.regs_setPc (v : Word) : (s.setPc v).regs = s.regs := rfl
@[simp] theorem State.pc_setPc (v : Word) : (s.setPc v).pc = v := rfl
@[simp] theorem State.cond_setPc (v : Word) : (s.setPc v).cond = s.cond := rfl
@[simp] theorem State.run_setPc (v : Word) : (s.setPc v).run = s.run := rfl
@[simp] theorem State.fault_setPc (v : Word) : (s.setPc v).fault = s.fault := rfl
@[simp] theorem State.mem_setPc (v : Word) : (s.setPc v).mem = s.mem := rfl
@[simp] theorem State.conin_setPc (v : Word) : (s.setPc v).conin = s.conin := rfl
@[simp] theorem State.conout_setPc (v : Word) : (s.setPc v).conout = s.conout := rfl
@[simp] theorem State.suspended_setPc (v : Word) : (s.setPc v).suspended = s.suspended := rfl

/-! ### setCond -/

@[simp] theorem State.regs_setCond (f : Cond) : (s.setCond f).regs = s.regs := rfl
@[simp] theorem State.pc_setCond (f : Cond) : (s.setCond f).pc = s.pc := rfl
@[simp] theorem State.cond_setCond (f : Cond) : (s.setCond f).cond = f := rfl
@[simp] theorem State.run_setCond (f : Cond) : (s.setCond f).run = s.run := rfl
@[simp] theorem State.fault_setCond (f : Cond) : (s.setCond f).fault = s.fault := rfl
@[simp] theorem State.mem_setCond (f : Cond) : (s.setCond f).mem = s.mem := rfl
@[simp] theorem State.conin_setCond (f : Cond) : (s.setCond f).conin = s.conin := rfl
@[simp] theorem State.conout_setCond (f : Cond) : (s.setCond f).conout = s.conout := rfl
@[simp] theorem State.suspended_setCond (f : Cond) : (s.setCond f).suspended = s.suspended := rfl

/-! ### setRun -/

@[simp] theorem State.regs_setRun (r : RunState) : (s.setRun r).regs = s.regs := rfl
@[simp] theorem State.pc_setRun (r : RunState) : (s.setRun r).pc = s.pc := rfl
@[simp] theorem State.cond_setRun (r : RunState) : (s.setRun r).cond = s.cond := rfl
@[simp] theorem State.run_setRun (r : RunState) : (s.setRun r).run = r := rfl
@[simp] theorem State.fault_setRun (r : RunState) : (s.setRun r).fault = s.fault := rfl
@[simp] theorem State.mem_setRun (r : RunState) : (s.setRun r).mem = s.mem := rfl
@[simp] theorem State.conin_setRun (r : RunState) : (s.setRun r).conin = s.conin := rfl
@[simp] theorem State.conout_setRun (r : RunState) : (s.setRun r).conout = s.conout := rfl
@[simp] theorem State.suspended_setRun (r : RunState) : (s.setRun r).suspended = s.suspended := rfl

/-! ### setFault -/

@[simp] theorem State.regs_setFault (f : Option AbortRecord) : (s.setFault f).regs = s.regs := rfl
@[simp] theorem State.pc_setFault (f : Option AbortRecord) : (s.setFault f).pc = s.pc := rfl
@[simp] theorem State.cond_setFault (f : Option AbortRecord) : (s.setFault f).cond = s.cond := rfl
@[simp] theorem State.run_setFault (f : Option AbortRecord) : (s.setFault f).run = s.run := rfl
@[simp] theorem State.fault_setFault (f : Option AbortRecord) : (s.setFault f).fault = f := rfl
@[simp] theorem State.mem_setFault (f : Option AbortRecord) : (s.setFault f).mem = s.mem := rfl
@[simp] theorem State.conin_setFault (f : Option AbortRecord) : (s.setFault f).conin = s.conin := rfl
@[simp] theorem State.conout_setFault (f : Option AbortRecord) : (s.setFault f).conout = s.conout := rfl
@[simp] theorem State.suspended_setFault (f : Option AbortRecord) : (s.setFault f).suspended = s.suspended := rfl

/-! ### setSuspended -/

@[simp] theorem State.regs_setSuspended (o : Option Suspended) : (s.setSuspended o).regs = s.regs := rfl
@[simp] theorem State.pc_setSuspended (o : Option Suspended) : (s.setSuspended o).pc = s.pc := rfl
@[simp] theorem State.cond_setSuspended (o : Option Suspended) : (s.setSuspended o).cond = s.cond := rfl
@[simp] theorem State.run_setSuspended (o : Option Suspended) : (s.setSuspended o).run = s.run := rfl
@[simp] theorem State.fault_setSuspended (o : Option Suspended) : (s.setSuspended o).fault = s.fault := rfl
@[simp] theorem State.mem_setSuspended (o : Option Suspended) : (s.setSuspended o).mem = s.mem := rfl
@[simp] theorem State.conin_setSuspended (o : Option Suspended) : (s.setSuspended o).conin = s.conin := rfl
@[simp] theorem State.conout_setSuspended (o : Option Suspended) : (s.setSuspended o).conout = s.conout := rfl
@[simp] theorem State.suspended_setSuspended (o : Option Suspended) : (s.setSuspended o).suspended = o := rfl

/-! ### storeCell -/

@[simp] theorem State.regs_storeCell (a v : Word) : (s.storeCell a v).regs = s.regs := rfl
@[simp] theorem State.pc_storeCell (a v : Word) : (s.storeCell a v).pc = s.pc := rfl
@[simp] theorem State.cond_storeCell (a v : Word) : (s.storeCell a v).cond = s.cond := rfl
@[simp] theorem State.run_storeCell (a v : Word) : (s.storeCell a v).run = s.run := rfl
@[simp] theorem State.fault_storeCell (a v : Word) : (s.storeCell a v).fault = s.fault := rfl
@[simp] theorem State.mem_storeCell (a v : Word) : (s.storeCell a v).mem = Memory.put s.mem a.toNat v := rfl
@[simp] theorem State.conin_storeCell (a v : Word) : (s.storeCell a v).conin = s.conin := rfl
@[simp] theorem State.conout_storeCell (a v : Word) : (s.storeCell a v).conout = s.conout := rfl
@[simp] theorem State.suspended_storeCell (a v : Word) : (s.storeCell a v).suspended = s.suspended := rfl

/-! ### setConin -/

@[simp] theorem State.regs_setConin (q : List Byte) : (s.setConin q).regs = s.regs := rfl
@[simp] theorem State.pc_setConin (q : List Byte) : (s.setConin q).pc = s.pc := rfl
@[simp] theorem State.cond_setConin (q : List Byte) : (s.setConin q).cond = s.cond := rfl
@[simp] theorem State.run_setConin (q : List Byte) : (s.setConin q).run = s.run := rfl
@[simp] theorem State.fault_setConin (q : List Byte) : (s.setConin q).fault = s.fault := rfl
@[simp] theorem State.mem_setConin (q : List Byte) : (s.setConin q).mem = s.mem := rfl
@[simp] theorem State.conin_setConin (q : List Byte) : (s.setConin q).conin = q := rfl
@[simp] theorem State.conout_setConin (q : List Byte) : (s.setConin q).conout = s.conout := rfl
@[simp] theorem State.suspended_setConin (q : List Byte) : (s.setConin q).suspended = s.suspended := rfl

/-! ### supply -/

@[simp] theorem State.regs_supply (b : Byte) : (s.supply b).regs = s.regs := rfl
@[simp] theorem State.pc_supply (b : Byte) : (s.supply b).pc = s.pc := rfl
@[simp] theorem State.cond_supply (b : Byte) : (s.supply b).cond = s.cond := rfl
@[simp] theorem State.run_supply (b : Byte) : (s.supply b).run = s.run := rfl
@[simp] theorem State.fault_supply (b : Byte) : (s.supply b).fault = s.fault := rfl
@[simp] theorem State.mem_supply (b : Byte) : (s.supply b).mem = s.mem := rfl
@[simp] theorem State.conin_supply (b : Byte) : (s.supply b).conin = s.conin ++ [b] := rfl
@[simp] theorem State.conout_supply (b : Byte) : (s.supply b).conout = s.conout := rfl
@[simp] theorem State.suspended_supply (b : Byte) : (s.supply b).suspended = s.suspended := rfl

/-! ### emit -/

@[simp] theorem State.regs_emit (es : List ConEvent) : (s.emit es).regs = s.regs := rfl
@[simp] theorem State.pc_emit (es : List ConEvent) : (s.emit es).pc = s.pc := rfl
@[simp] theorem State.cond_emit (es : List ConEvent) : (s.emit es).cond = s.cond := rfl
@[simp] theorem State.run_emit (es : List ConEvent) : (s.emit es).run = s.run := rfl
@[simp] theorem State.fault_emit (es : List ConEvent) : (s.emit es).fault = s.fault := rfl
@[simp] theorem State.mem_emit (es : List ConEvent) : (s.emit es).mem = s.mem := rfl
@[simp] theorem State.conin_emit (es : List ConEvent) : (s.emit es).conin = s.conin := rfl
@[simp] theorem State.conout_emit (es : List ConEvent) : (s.emit es).conout = s.conout ++ es := rfl
@[simp] theorem State.suspended_emit (es : List ConEvent) : (s.emit es).suspended = s.suspended := rfl

/-! ### Reads of registers and cells through the updates that leave them alone -/

@[simp] theorem State.reg_setPc (v : Word) (p : Reg) : (s.setPc v).reg p = s.reg p := rfl
@[simp] theorem State.reg_setCond (f : Cond) (p : Reg) : (s.setCond f).reg p = s.reg p := rfl
@[simp] theorem State.reg_setRun (r : RunState) (p : Reg) : (s.setRun r).reg p = s.reg p := rfl
@[simp] theorem State.reg_setFault (f : Option AbortRecord) (p : Reg) : (s.setFault f).reg p = s.reg p := rfl
@[simp] theorem State.reg_setSuspended (o : Option Suspended) (p : Reg) : (s.setSuspended o).reg p = s.reg p := rfl
@[simp] theorem State.reg_storeCell (a v : Word) (p : Reg) : (s.storeCell a v).reg p = s.reg p := rfl
@[simp] theorem State.reg_setConin (q : List Byte) (p : Reg) : (s.setConin q).reg p = s.reg p := rfl
@[simp] theorem State.reg_supply (b : Byte) (p : Reg) : (s.supply b).reg p = s.reg p := rfl
@[simp] theorem State.reg_emit (es : List ConEvent) (p : Reg) : (s.emit es).reg p = s.reg p := rfl
@[simp] theorem State.cell_setReg (r : Reg) (v : Word) (w : Word) : (s.setReg r v).cell w = s.cell w := rfl
@[simp] theorem State.cell_setPc (v : Word) (w : Word) : (s.setPc v).cell w = s.cell w := rfl
@[simp] theorem State.cell_setCond (f : Cond) (w : Word) : (s.setCond f).cell w = s.cell w := rfl
@[simp] theorem State.cell_setRun (r : RunState) (w : Word) : (s.setRun r).cell w = s.cell w := rfl
@[simp] theorem State.cell_setFault (f : Option AbortRecord) (w : Word) : (s.setFault f).cell w = s.cell w := rfl
@[simp] theorem State.cell_setSuspended (o : Option Suspended) (w : Word) : (s.setSuspended o).cell w = s.cell w := rfl
@[simp] theorem State.cell_setConin (q : List Byte) (w : Word) : (s.setConin q).cell w = s.cell w := rfl
@[simp] theorem State.cell_supply (b : Byte) (w : Word) : (s.supply b).cell w = s.cell w := rfl
@[simp] theorem State.cell_emit (es : List ConEvent) (w : Word) : (s.emit es).cell w = s.cell w := rfl

/-! ### The register file: read after write (R21) -/

theorem Regs.get_set (f : Regs) (r q : Reg) (v : Word) : (f.set r v).get q = if q = r then v else f.get q := by
  cases r <;> cases q <;> rfl

theorem State.reg_setReg (r q : Reg) (v : Word) : (s.setReg r v).reg q = if q = r then v else s.reg q :=
  Regs.get_set s.regs r q v

@[simp] theorem State.reg_setReg_self (r : Reg) (v : Word) : (s.setReg r v).reg r = v := by
  simp [State.reg_setReg]

theorem State.reg_setReg_ne (r q : Reg) (v : Word) (h : q ≠ r) : (s.setReg r v).reg q = s.reg q := by
  simp [State.reg_setReg, h]

/-- Two register files that agree on every register are the same file. -/
theorem Regs.ext_get (f g : Regs) (h : ∀ r, f.get r = g.get r) : f = g := by
  obtain ⟨f0, f1, f2, f3, f4, f5, f6, f7⟩ := f
  obtain ⟨g0, g1, g2, g3, g4, g5, g6, g7⟩ := g
  have h0 := h .r0; have h1 := h .r1; have h2 := h .r2; have h3 := h .r3
  have h4 := h .r4; have h5 := h .r5; have h6 := h .r6; have h7 := h .r7
  simp only [Regs.get] at h0 h1 h2 h3 h4 h5 h6 h7
  subst h0 h1 h2 h3 h4 h5 h6 h7
  rfl

end Sys2Proof.Machine
end

