-- ==== Sys2Proof/Laws/Memory.lean ====
section
/-! SUPPORT. Memory: read after write, and that every memory operation keeps the canonical form `Memory.wf`. -/

namespace Sys2Proof.Machine

theorem Memory.wfFrom_cons (lo k : Nat) (v : Word) (m : Memory) :
    Memory.wfFrom lo ((k, v) :: m) = true ↔
      lo ≤ k ∧ k < memoryWords ∧ v ≠ 0 ∧ Memory.wfFrom (k + 1) m = true := by
  simp [Memory.wfFrom, and_assoc]

theorem Memory.wfFrom_mono {lo lo' : Nat} {m : Memory} (h : Memory.wfFrom lo m = true) (hle : lo' ≤ lo) :
    Memory.wfFrom lo' m = true := by
  cases m with
  | nil => rfl
  | cons c m =>
    obtain ⟨k, v⟩ := c
    rw [Memory.wfFrom_cons] at h ⊢
    exact ⟨by omega, h.2⟩

/-- An address below every listed one reads as 0x0000. -/
theorem Memory.get_below {lo a : Nat} {m : Memory} (h : Memory.wfFrom lo m = true) (ha : a < lo) :
    Memory.get m a = 0 := by
  induction m generalizing lo with
  | nil => rfl
  | cons c m ih =>
    obtain ⟨k, v⟩ := c
    rw [Memory.wfFrom_cons] at h
    have hk : k ≠ a := by omega
    simp only [Memory.get, hk, if_false]
    exact ih h.2.2.2 (by omega)

/-- A write keeps the canonical form. -/
theorem Memory.wfFrom_put {lo a : Nat} {m : Memory} (v : Word) (h : Memory.wfFrom lo m = true)
    (hlo : lo ≤ a) (ha : a < memoryWords) : Memory.wfFrom lo (Memory.put m a v) = true := by
  induction m generalizing lo with
  | nil =>
    by_cases hv : v = 0
    · simp [Memory.put, hv, Memory.wfFrom]
    · rw [Memory.put, if_neg hv]
      exact (Memory.wfFrom_cons ..).2 ⟨hlo, ha, hv, rfl⟩
  | cons c m ih =>
    obtain ⟨k, u⟩ := c
    rw [Memory.wfFrom_cons] at h
    obtain ⟨h1, h2, h3, h4⟩ := h
    simp only [Memory.put]
    split
    · split
      · exact (Memory.wfFrom_cons ..).2 ⟨h1, h2, h3, h4⟩
      · rename_i hak hv
        exact (Memory.wfFrom_cons ..).2 ⟨hlo, ha, hv, (Memory.wfFrom_cons ..).2 ⟨by omega, h2, h3, h4⟩⟩
    · split
      · rename_i _ hak
        split
        · exact Memory.wfFrom_mono h4 (by omega)
        · rename_i hv
          exact (Memory.wfFrom_cons ..).2 ⟨hlo, ha, hv, hak ▸ h4⟩
      · exact (Memory.wfFrom_cons ..).2 ⟨h1, h2, h3, ih h4 (by omega)⟩

/-- Reading the written address gives the written word. -/
theorem Memory.get_put_self {lo a : Nat} {m : Memory} (v : Word) (h : Memory.wfFrom lo m = true) :
    Memory.get (Memory.put m a v) a = v := by
  induction m generalizing lo with
  | nil =>
    by_cases hv : v = 0
    · rw [Memory.put, if_pos hv, hv]
      rfl
    · rw [Memory.put, if_neg hv]
      simp [Memory.get]
  | cons c m ih =>
    obtain ⟨k, u⟩ := c
    rw [Memory.wfFrom_cons] at h
    obtain ⟨_, h2, h3, h4⟩ := h
    simp only [Memory.put]
    split
    · split
      · rename_i hak hv
        have hka : k ≠ a := by omega
        simp only [Memory.get, hka, if_false, hv]
        exact Memory.get_below h4 (by omega)
      · simp [Memory.get]
    · split
      · split
        · rename_i hak hv
          rw [hv]
          exact Memory.get_below h4 (by omega)
        · simp [Memory.get]
      · rename_i _ hak
        have hka : k ≠ a := fun e => hak e.symm
        simp only [Memory.get, hka, if_false]
        exact ih h4

/-- Reading any other address gives what it gave before. -/
theorem Memory.get_put_ne {a b : Nat} (m : Memory) (v : Word) (hab : b ≠ a) :
    Memory.get (Memory.put m a v) b = Memory.get m b := by
  induction m with
  | nil =>
    by_cases hv : v = 0
    · rw [Memory.put, if_pos hv]
    · rw [Memory.put, if_neg hv]
      simp [Memory.get, hab.symm]
  | cons c m ih =>
    obtain ⟨k, u⟩ := c
    have hne : a ≠ b := hab.symm
    simp only [Memory.put]
    split
    · split
      · rfl
      · simp [Memory.get, hne]
    · split
      · rename_i _ hak
        have hkb : k ≠ b := hak ▸ hne
        split <;> simp [Memory.get, hkb, hne]
      · simp only [Memory.get, ih]

/-- Two memories in canonical form that read the same everywhere are the same list. -/
theorem Memory.eq_of_get {m m' : Memory} (h : Memory.wf m = true) (h' : Memory.wf m' = true)
    (hget : ∀ a, Memory.get m a = Memory.get m' a) : m = m' := by
  suffices H : ∀ lo, Memory.wfFrom lo m = true → Memory.wfFrom lo m' = true → m = m' from H 0 h h'
  clear h h'
  induction m generalizing m' with
  | nil =>
    intro lo _ h'
    cases m' with
    | nil => rfl
    | cons c m' =>
      obtain ⟨k, v⟩ := c
      have := hget k
      simp only [Memory.get, if_true] at this
      exact absurd this.symm ((Memory.wfFrom_cons ..).1 h').2.2.1
  | cons c m ih =>
    intro lo h h'
    obtain ⟨k, v⟩ := c
    have hc := (Memory.wfFrom_cons ..).1 h
    cases m' with
    | nil =>
      have := hget k
      simp only [Memory.get, if_true] at this
      exact absurd this hc.2.2.1
    | cons c' m' =>
      obtain ⟨k', v'⟩ := c'
      have hc' := (Memory.wfFrom_cons ..).1 h'
      have hk : k = k' := by
        rcases Nat.lt_trichotomy k k' with hlt | heq | hgt
        · have := hget k
          rw [Memory.get_below ((Memory.wfFrom_cons ..).2 ⟨le_refl k', hc'.2⟩) hlt] at this
          simp only [Memory.get, if_true] at this
          exact absurd this hc.2.2.1
        · exact heq
        · have := hget k'
          rw [Memory.get_below ((Memory.wfFrom_cons ..).2 ⟨le_refl k, hc.2⟩) hgt] at this
          simp only [Memory.get, if_true] at this
          exact absurd this.symm hc'.2.2.1
      subst hk
      have hv : v = v' := by simpa [Memory.get] using hget k
      subst hv
      have htail : m = m' := by
        apply ih _ (k + 1) hc.2.2.2 hc'.2.2.2
        intro a
        by_cases hak : a = k
        · subst hak
          rw [Memory.get_below hc.2.2.2 (by omega), Memory.get_below hc'.2.2.2 (by omega)]
        · have := hget a
          have hka : k ≠ a := fun e => hak e.symm
          simpa [Memory.get, hka] using this
      rw [htail]

/-! ### The same, of the state's cells -/

theorem State.wf_storeCell (s : State) (a v : Word) (h : Memory.wf s.mem = true) :
    Memory.wf (s.storeCell a v).mem = true :=
  Memory.wfFrom_put v h (Nat.zero_le _) a.isLt

theorem State.cell_storeCell_self (s : State) (a v : Word) (h : Memory.wf s.mem = true) :
    (s.storeCell a v).cell a = v :=
  Memory.get_put_self v h

theorem State.cell_storeCell_ne (s : State) (a v b : Word) (hab : b ≠ a) :
    (s.storeCell a v).cell b = s.cell b :=
  Memory.get_put_ne s.mem v (fun e => hab (BitVec.eq_of_toNat_eq e))

theorem State.cell_storeCell (s : State) (a v b : Word) (h : Memory.wf s.mem = true) :
    (s.storeCell a v).cell b = if b = a then v else s.cell b := by
  split
  · rename_i hab
    rw [hab]
    exact State.cell_storeCell_self s a v h
  · rename_i hab
    exact State.cell_storeCell_ne s a v b hab

theorem reset_mem_wf : Memory.wf State.reset.mem = true := rfl

end Sys2Proof.Machine
end

