-- ==== Sys2Proof/Laws/Ops.lean ====
section
/-! SUPPORT. One lemma per shared operation that says everything it can do: the memory primitives, fetch, the flag logic and the
abort. -/

namespace Sys2Proof.Machine

/-! ### The flag logic (R90) -/

theorem condOf_neg_iff (v : Word) : condOf v = .neg ↔ v[15] = true := by
  unfold condOf
  split
  · simp [*]
  · split <;> simp [*]

theorem condOf_zero_iff (v : Word) : condOf v = .zero ↔ v = 0 := by
  unfold condOf
  split
  · rename_i h
    constructor
    · intro e; cases e
    · intro e
      subst e
      exact absurd h (by decide)
  · split <;> simp_all

theorem condOf_pos_iff (v : Word) : condOf v = .pos ↔ v[15] = false ∧ v ≠ 0 := by
  unfold condOf
  split
  · simp [*]
  · split <;> simp_all

/-- The branch test names the current flag (R67, R110). -/
theorem branchTaken_iff (nzp : BitVec 3) (f : Cond) :
    branchTaken nzp f = true ↔
      (nzp[2] = true ∧ f = .neg) ∨ (nzp[1] = true ∧ f = .zero) ∨ (nzp[0] = true ∧ f = .pos) := by
  revert nzp
  cases f <;> decide

/-! ### Destination writes -/

@[simp] theorem writeDest_pc (r : Reg) (v : Word) (s : State) : (writeDest r v s).pc = s.pc := rfl
@[simp] theorem writeDest_run (r : Reg) (v : Word) (s : State) : (writeDest r v s).run = s.run := rfl
@[simp] theorem writeDest_fault (r : Reg) (v : Word) (s : State) : (writeDest r v s).fault = s.fault := rfl
@[simp] theorem writeDest_mem (r : Reg) (v : Word) (s : State) : (writeDest r v s).mem = s.mem := rfl
@[simp] theorem writeDest_cell (r : Reg) (v : Word) (s : State) (a : Word) : (writeDest r v s).cell a = s.cell a := rfl
@[simp] theorem writeDest_conin (r : Reg) (v : Word) (s : State) : (writeDest r v s).conin = s.conin := rfl
@[simp] theorem writeDest_conout (r : Reg) (v : Word) (s : State) : (writeDest r v s).conout = s.conout := rfl
@[simp] theorem writeDest_suspended (r : Reg) (v : Word) (s : State) : (writeDest r v s).suspended = s.suspended := rfl

theorem writeDest_reg (r q : Reg) (v : Word) (s : State) :
    (writeDest r v s).reg q = if q = r then v else s.reg q := by
  simp [writeDest, setFlags, State.reg_setReg]

@[simp] theorem writeDest_cond (r : Reg) (v : Word) (s : State) : (writeDest r v s).cond = condOf v := by
  simp [writeDest, setFlags]

/-! ### The keyboard intercept (R42) and the reads -/

theorem pollKeyboard_idle {s : State} (h : s.conin = []) : pollKeyboard s = (0, s.storeCell kbsr 0) := by
  simp [pollKeyboard, h]

theorem pollKeyboard_pending {s : State} {c : Byte} {rest : List Byte} (h : s.conin = c :: rest) :
    pollKeyboard s =
      (statusPending, ((s.storeCell kbsr statusPending).storeCell kbdr (c.setWidth 16)).setConin rest) := by
  simp [pollKeyboard, h]

theorem memRead_plain {a : Word} (s : State) (h : a ≠ kbsr) : memRead a s = (s.cell a, s) := by
  simp [memRead, h]

theorem memRead_kbsr (s : State) : memRead kbsr s = pollKeyboard s := by
  simp [memRead]

/-- Everything a read can change: the two keyboard cells and the head of the input queue, and those only at 0xFE00. -/
theorem memRead_cases (a : Word) (s : State) :
    (a ≠ kbsr ∧ memRead a s = (s.cell a, s)) ∨
    (a = kbsr ∧ s.conin = [] ∧ memRead a s = (0, s.storeCell kbsr 0)) ∨
    (a = kbsr ∧ ∃ c rest, s.conin = c :: rest ∧ memRead a s =
      (statusPending, ((s.storeCell kbsr statusPending).storeCell kbdr (c.setWidth 16)).setConin rest)) := by
  by_cases h : a = kbsr
  · subst h
    rw [memRead_kbsr]
    rcases hq : s.conin with _ | ⟨c, rest⟩
    · exact .inr (.inl ⟨rfl, rfl, pollKeyboard_idle hq⟩)
    · exact .inr (.inr ⟨rfl, c, rest, rfl, pollKeyboard_pending hq⟩)
  · exact .inl ⟨h, memRead_plain s h⟩

/-- What no read changes. -/
theorem memRead_frame (a : Word) (s : State) :
    (memRead a s).2.regs = s.regs ∧ (memRead a s).2.pc = s.pc ∧ (memRead a s).2.cond = s.cond ∧
    (memRead a s).2.run = s.run ∧ (memRead a s).2.fault = s.fault ∧ (memRead a s).2.conout = s.conout ∧
    (memRead a s).2.suspended = s.suspended := by
  rcases memRead_cases a s with ⟨_, h⟩ | ⟨_, _, h⟩ | ⟨_, c, rest, _, h⟩ <;> simp [h]

/-- A read keeps memory canonical. -/
theorem memRead_wf (a : Word) {s : State} (hw : Memory.wf s.mem = true) : Memory.wf (memRead a s).2.mem = true := by
  rcases memRead_cases a s with ⟨_, h⟩ | ⟨_, _, h⟩ | ⟨_, c, rest, _, h⟩
  · simpa [h] using hw
  · rw [h]
    exact State.wf_storeCell s kbsr 0 hw
  · rw [h]
    exact State.wf_storeCell _ kbdr _ (State.wf_storeCell s kbsr _ hw)

/-- A read changes no cell but the two keyboard cells. -/
theorem memRead_cell_ne (a b : Word) (s : State) (h0 : b ≠ kbsr) (h1 : b ≠ kbdr) :
    (memRead a s).2.cell b = s.cell b := by
  rcases memRead_cases a s with ⟨_, h⟩ | ⟨_, _, h⟩ | ⟨_, c, rest, _, h⟩
  · rw [h]
  · rw [h]
    exact State.cell_storeCell_ne s kbsr 0 b h0
  · rw [h]
    simp only [State.cell_setConin]
    rw [State.cell_storeCell_ne _ _ _ _ h1, State.cell_storeCell_ne _ _ _ _ h0]

/-! ### Writes (R45, R46) -/

/-- Everything a write can do: store, or be refused at a keyboard address. -/
theorem memWrite_cases (c : Config) (a v : Word) (s : State) :
    memWrite c a v s = .next (s.storeCell a v) ∨
    ((a = kbsr ∨ a = kbdr) ∧ c.devWrite = .refuse ∧ memWrite c a v s = .refused (.deviceWrite a)) := by
  unfold memWrite
  split
  · rename_i h
    cases hd : c.devWrite
    · exact .inr ⟨h, rfl, rfl⟩
    · exact .inl rfl
  · exact .inl rfl

theorem memWrite_plain (c : Config) {a : Word} (v : Word) (s : State) (h0 : a ≠ kbsr) (h1 : a ≠ kbdr) :
    memWrite c a v s = .next (s.storeCell a v) := by
  simp [memWrite, h0, h1]

/-! ### Fetch (R170) -/

theorem fetch_plain {s : State} (h : s.pc ≠ kbsr) : fetch s = (s.cell s.pc, s.setPc (s.pc + 1)) := by
  simp [fetch, memRead_plain s h]

theorem fetch_frame (s : State) :
    (fetch s).2.regs = s.regs ∧ (fetch s).2.pc = s.pc + 1 ∧ (fetch s).2.cond = s.cond ∧
    (fetch s).2.run = s.run ∧ (fetch s).2.fault = s.fault ∧ (fetch s).2.conout = s.conout ∧
    (fetch s).2.suspended = s.suspended := by
  have h := memRead_frame s.pc s
  simp only [fetch, State.regs_setPc, State.pc_setPc, State.cond_setPc, State.run_setPc, State.fault_setPc,
    State.conout_setPc, State.suspended_setPc]
  exact ⟨h.1, trivial, h.2.2⟩

/-! ### The abort (R172) -/

@[simp] theorem raiseIllegalOpcode_run (a w : Word) (s : State) : (raiseIllegalOpcode a w s).run = .aborted := rfl
@[simp] theorem raiseIllegalOpcode_fault (a w : Word) (s : State) :
    (raiseIllegalOpcode a w s).fault = some ⟨a, w⟩ := rfl
@[simp] theorem raiseIllegalOpcode_regs (a w : Word) (s : State) : (raiseIllegalOpcode a w s).regs = s.regs := rfl
@[simp] theorem raiseIllegalOpcode_pc (a w : Word) (s : State) : (raiseIllegalOpcode a w s).pc = s.pc := rfl
@[simp] theorem raiseIllegalOpcode_cond (a w : Word) (s : State) : (raiseIllegalOpcode a w s).cond = s.cond := rfl
@[simp] theorem raiseIllegalOpcode_mem (a w : Word) (s : State) : (raiseIllegalOpcode a w s).mem = s.mem := rfl
@[simp] theorem raiseIllegalOpcode_conin (a w : Word) (s : State) : (raiseIllegalOpcode a w s).conin = s.conin := rfl
@[simp] theorem raiseIllegalOpcode_conout (a w : Word) (s : State) : (raiseIllegalOpcode a w s).conout = s.conout := rfl
@[simp] theorem raiseIllegalOpcode_suspended (a w : Word) (s : State) :
    (raiseIllegalOpcode a w s).suspended = s.suspended := rfl

end Sys2Proof.Machine
end

