-- ==== Sys2Proof/Laws/PerInstr.lean ====
section
/-! SUPPORT. Statements about every instruction as syntax, one lemma per constructor. -/

namespace Sys2Proof.Laws.EncodeFitsRow

/-- The encoding of an instruction has the fixed bits of its row of spec/opcode_table.json. -/
def Statement (i : Instr) : Prop := i.row.covers (encode i) = true

/-- A placed field that lies under no set bit of the mask is masked away. -/
theorem place_and_mask {n : Nat} (lo : Nat) (v : BitVec n) (mask : Word) (h : mask &&& place lo (BitVec.allOnes n) = 0) :
    place lo v &&& mask = 0 := by
  apply BitVec.eq_of_getLsbD_eq
  intro i hi
  have hm := congrArg (fun w : Word => w.getLsbD i) h
  simp only [BitVec.getLsbD_and, getLsbD_place, BitVec.getLsbD_allOnes] at hm ⊢
  by_cases hv : v.getLsbD (i - lo) = true
  · have hlt : i - lo < n := BitVec.lt_of_getLsbD hv
    simp only [hlt, decide_true, Bool.and_true] at hm
    rw [hv, Bool.and_true, Bool.and_comm]
    exact hm
  · simp [hv]

theorem or_and_mask (a b mask : Word) : (a ||| b) &&& mask = (a &&& mask) ||| (b &&& mask) := by
  apply BitVec.eq_of_getLsbD_eq
  intro i hi
  simp [Bool.and_or_distrib_right]

theorem addReg (dr sr1 sr2 : Reg) : Statement (.addReg dr sr1 sr2) := by
  simp (disch := decide) only [Statement, OpcodeRow.covers, Instr.row, encode, operandBits, Instr.opcode, or_and_mask, place_and_mask]
  rfl

theorem addImm (dr sr1 : Reg) (imm5 : BitVec 5) : Statement (.addImm dr sr1 imm5) := by
  simp (disch := decide) only [Statement, OpcodeRow.covers, Instr.row, encode, operandBits, Instr.opcode, or_and_mask, place_and_mask]
  rfl

theorem andReg (dr sr1 sr2 : Reg) : Statement (.andReg dr sr1 sr2) := by
  simp (disch := decide) only [Statement, OpcodeRow.covers, Instr.row, encode, operandBits, Instr.opcode, or_and_mask, place_and_mask]
  rfl

theorem andImm (dr sr1 : Reg) (imm5 : BitVec 5) : Statement (.andImm dr sr1 imm5) := by
  simp (disch := decide) only [Statement, OpcodeRow.covers, Instr.row, encode, operandBits, Instr.opcode, or_and_mask, place_and_mask]
  rfl

theorem not (dr sr1 : Reg) : Statement (.not dr sr1) := by
  simp (disch := decide) only [Statement, OpcodeRow.covers, Instr.row, encode, operandBits, Instr.opcode, or_and_mask, place_and_mask]
  rfl

theorem br (nzp : BitVec 3) (offset9 : BitVec 9) : Statement (.br nzp offset9) := by
  simp (disch := decide) only [Statement, OpcodeRow.covers, Instr.row, encode, operandBits, Instr.opcode, or_and_mask, place_and_mask]
  rfl

theorem jmp (baseR : Reg) : Statement (.jmp baseR) := by
  simp (disch := decide) only [Statement, OpcodeRow.covers, Instr.row, encode, operandBits, Instr.opcode, or_and_mask, place_and_mask]
  rfl

theorem jsr (offset11 : BitVec 11) : Statement (.jsr offset11) := by
  simp (disch := decide) only [Statement, OpcodeRow.covers, Instr.row, encode, operandBits, Instr.opcode, or_and_mask, place_and_mask]
  rfl

theorem jsrr (baseR : Reg) : Statement (.jsrr baseR) := by
  simp (disch := decide) only [Statement, OpcodeRow.covers, Instr.row, encode, operandBits, Instr.opcode, or_and_mask, place_and_mask]
  rfl

theorem ld (dr : Reg) (offset9 : BitVec 9) : Statement (.ld dr offset9) := by
  simp (disch := decide) only [Statement, OpcodeRow.covers, Instr.row, encode, operandBits, Instr.opcode, or_and_mask, place_and_mask]
  rfl

theorem ldi (dr : Reg) (offset9 : BitVec 9) : Statement (.ldi dr offset9) := by
  simp (disch := decide) only [Statement, OpcodeRow.covers, Instr.row, encode, operandBits, Instr.opcode, or_and_mask, place_and_mask]
  rfl

theorem ldr (dr baseR : Reg) (offset6 : BitVec 6) : Statement (.ldr dr baseR offset6) := by
  simp (disch := decide) only [Statement, OpcodeRow.covers, Instr.row, encode, operandBits, Instr.opcode, or_and_mask, place_and_mask]
  rfl

theorem lea (dr : Reg) (offset9 : BitVec 9) : Statement (.lea dr offset9) := by
  simp (disch := decide) only [Statement, OpcodeRow.covers, Instr.row, encode, operandBits, Instr.opcode, or_and_mask, place_and_mask]
  rfl

theorem st (sr : Reg) (offset9 : BitVec 9) : Statement (.st sr offset9) := by
  simp (disch := decide) only [Statement, OpcodeRow.covers, Instr.row, encode, operandBits, Instr.opcode, or_and_mask, place_and_mask]
  rfl

theorem sti (sr : Reg) (offset9 : BitVec 9) : Statement (.sti sr offset9) := by
  simp (disch := decide) only [Statement, OpcodeRow.covers, Instr.row, encode, operandBits, Instr.opcode, or_and_mask, place_and_mask]
  rfl

theorem str (sr baseR : Reg) (offset6 : BitVec 6) : Statement (.str sr baseR offset6) := by
  simp (disch := decide) only [Statement, OpcodeRow.covers, Instr.row, encode, operandBits, Instr.opcode, or_and_mask, place_and_mask]
  rfl

theorem trap (trapvect8 : BitVec 8) : Statement (.trap trapvect8) := by
  simp (disch := decide) only [Statement, OpcodeRow.covers, Instr.row, encode, operandBits, Instr.opcode, or_and_mask, place_and_mask]
  rfl

theorem rti (low12 : BitVec 12) : Statement (.rti low12) := by
  simp (disch := decide) only [Statement, OpcodeRow.covers, Instr.row, encode, operandBits, Instr.opcode, or_and_mask, place_and_mask]
  rfl

theorem res (low12 : BitVec 12) : Statement (.res low12) := by
  simp (disch := decide) only [Statement, OpcodeRow.covers, Instr.row, encode, operandBits, Instr.opcode, or_and_mask, place_and_mask]
  rfl

end Sys2Proof.Laws.EncodeFitsRow
end

