-- ==== Sys2Proof/Laws/Trap.lean ====
section
/-! SUPPORT. The trap unit: one round of each string loop, and what no routine changes. -/

namespace Sys2Proof.Machine

/-! ### String reads (R54) -/

/-- A string word off the keyboard status address, or with the intercept off: straight from the array. -/
theorem strRead_straight (c : Config) (a : Word) (s : State) (h : c.trapStringIntercept = false ∨ a ≠ kbsr) :
    strRead c a s = (s.cell a, s) := by
  unfold strRead
  split
  · rename_i ha
    rcases h with h | h
    · simp [h]
    · exact absurd ha h
  · rfl

/-- A string read is one of two things. -/
theorem strRead_cases (c : Config) (a : Word) (s : State) :
    strRead c a s = (s.cell a, s) ∨ (a = kbsr ∧ c.trapStringIntercept = true ∧ strRead c a s = memRead a s) := by
  unfold strRead
  split
  · rename_i ha
    cases hc : c.trapStringIntercept
    · exact .inl rfl
    · exact .inr ⟨ha, rfl, rfl⟩
  · exact .inl rfl

theorem strRead_frame (c : Config) (a : Word) (s : State) :
    (strRead c a s).2.regs = s.regs ∧ (strRead c a s).2.pc = s.pc ∧ (strRead c a s).2.cond = s.cond ∧
    (strRead c a s).2.run = s.run ∧ (strRead c a s).2.fault = s.fault ∧ (strRead c a s).2.conout = s.conout ∧
    (strRead c a s).2.suspended = s.suspended := by
  rcases strRead_cases c a s with h | ⟨_, _, h⟩
  · simp [h]
  · rw [h]
    exact memRead_frame a s

theorem strRead_wf (c : Config) (a : Word) {s : State} (hw : Memory.wf s.mem = true) :
    Memory.wf (strRead c a s).2.mem = true := by
  rcases strRead_cases c a s with h | ⟨_, _, h⟩
  · simpa [h] using hw
  · rw [h]
    exact memRead_wf a hw

/-! ### One round of each loop (R149, R150) -/

theorem putsLoop_end (c : Config) (n : Nat) (a : Word) (s : State) (h : (strRead c a s).1 = 0) :
    putsLoop c (n + 1) a s = ((strRead c a s).2.emit [.flush]).setSuspended none := by
  rw [putsLoop, if_pos h]

theorem putsLoop_more (c : Config) (n : Nat) (a : Word) (s : State) (h : (strRead c a s).1 ≠ 0) :
    putsLoop c (n + 1) a s =
      putsLoop c n (a + 1) ((strRead c a s).2.emit [.byte (lowByte (strRead c a s).1)]) := by
  rw [putsLoop, if_neg h]

theorem putspLoop_end (c : Config) (n : Nat) (a : Word) (s : State) (h : (strRead c a s).1 = 0) :
    putspLoop c (n + 1) a s = (strRead c a s).2.setSuspended none := by
  rw [putspLoop, if_pos h]

theorem putspLoop_more (c : Config) (n : Nat) (a : Word) (s : State) (h : (strRead c a s).1 ≠ 0) :
    putspLoop c (n + 1) a s =
      putspLoop c n (a + 1) ((strRead c a s).2.emit (packedEvents (strRead c a s).1)) := by
  rw [putspLoop, if_neg h]

/-! ### What a loop keeps -/

theorem putsLoop_frame (c : Config) (n : Nat) (a : Word) (s : State) :
    (putsLoop c n a s).regs = s.regs ∧ (putsLoop c n a s).pc = s.pc ∧ (putsLoop c n a s).cond = s.cond ∧
    (putsLoop c n a s).run = s.run ∧ (putsLoop c n a s).fault = s.fault := by
  induction n generalizing a s with
  | zero => simp [putsLoop]
  | succ n ih =>
    have hf := strRead_frame c a s
    by_cases h : (strRead c a s).1 = 0
    · rw [putsLoop_end c n a s h]
      simp [hf]
    · rw [putsLoop_more c n a s h]
      have := ih (a + 1) ((strRead c a s).2.emit [.byte (lowByte (strRead c a s).1)])
      simpa [hf] using this

theorem putspLoop_frame (c : Config) (n : Nat) (a : Word) (s : State) :
    (putspLoop c n a s).regs = s.regs ∧ (putspLoop c n a s).pc = s.pc ∧ (putspLoop c n a s).cond = s.cond ∧
    (putspLoop c n a s).run = s.run ∧ (putspLoop c n a s).fault = s.fault := by
  induction n generalizing a s with
  | zero => simp [putspLoop]
  | succ n ih =>
    have hf := strRead_frame c a s
    by_cases h : (strRead c a s).1 = 0
    · rw [putspLoop_end c n a s h]
      simp [hf]
    · rw [putspLoop_more c n a s h]
      have := ih (a + 1) ((strRead c a s).2.emit (packedEvents (strRead c a s).1))
      simpa [hf] using this

theorem putsLoop_wf (c : Config) (n : Nat) (a : Word) {s : State} (hw : Memory.wf s.mem = true) :
    Memory.wf (putsLoop c n a s).mem = true := by
  induction n generalizing a s with
  | zero => exact hw
  | succ n ih =>
    by_cases h : (strRead c a s).1 = 0
    · rw [putsLoop_end c n a s h]
      exact strRead_wf c a hw
    · rw [putsLoop_more c n a s h]
      exact ih (a + 1) (s := (strRead c a s).2.emit _) (strRead_wf c a hw)

theorem putspLoop_wf (c : Config) (n : Nat) (a : Word) {s : State} (hw : Memory.wf s.mem = true) :
    Memory.wf (putspLoop c n a s).mem = true := by
  induction n generalizing a s with
  | zero => exact hw
  | succ n ih =>
    by_cases h : (strRead c a s).1 = 0
    · rw [putspLoop_end c n a s h]
      exact strRead_wf c a hw
    · rw [putspLoop_more c n a s h]
      exact ih (a + 1) (s := (strRead c a s).2.emit _) (strRead_wf c a hw)

theorem strRead_cell_ne (c : Config) (a b : Word) (s : State) (h0 : b ≠ kbsr) (h1 : b ≠ kbdr) :
    (strRead c a s).2.cell b = s.cell b := by
  rcases strRead_cases c a s with h | ⟨_, _, h⟩
  · rw [h]
  · rw [h]
    exact memRead_cell_ne a b s h0 h1

/-- PUTS changes no cell but the two keyboard cells. -/
theorem putsLoop_cell_ne (c : Config) (n : Nat) (a b : Word) (s : State) (h0 : b ≠ kbsr) (h1 : b ≠ kbdr) :
    (putsLoop c n a s).cell b = s.cell b := by
  induction n generalizing a s with
  | zero => rfl
  | succ n ih =>
    by_cases h : (strRead c a s).1 = 0
    · rw [putsLoop_end c n a s h]
      exact strRead_cell_ne c a b s h0 h1
    · rw [putsLoop_more c n a s h, ih]
      exact strRead_cell_ne c a b s h0 h1

/-- PUTSP changes no cell but the two keyboard cells. -/
theorem putspLoop_cell_ne (c : Config) (n : Nat) (a b : Word) (s : State) (h0 : b ≠ kbsr) (h1 : b ≠ kbdr) :
    (putspLoop c n a s).cell b = s.cell b := by
  induction n generalizing a s with
  | zero => rfl
  | succ n ih =>
    by_cases h : (strRead c a s).1 = 0
    · rw [putspLoop_end c n a s h]
      exact strRead_cell_ne c a b s h0 h1
    · rw [putspLoop_more c n a s h, ih]
      exact strRead_cell_ne c a b s h0 h1

/-- Words read straight: PUTS changes neither memory nor the input queue. -/
theorem putsLoop_straight (c : Config) (n : Nat) (a : Word) (s : State)
    (h : c.trapStringIntercept = false ∨ ∀ i < n, a + BitVec.ofNat 16 i ≠ kbsr) :
    (putsLoop c n a s).mem = s.mem ∧ (putsLoop c n a s).conin = s.conin := by
  induction n generalizing a s with
  | zero => exact ⟨rfl, rfl⟩
  | succ n ih =>
    have hr := strRead_straight c a s (h.imp_right fun h => by simpa using h 0 (Nat.succ_pos n))
    by_cases hz : (strRead c a s).1 = 0
    · rw [putsLoop_end c n a s hz, hr]
      exact ⟨rfl, rfl⟩
    · rw [putsLoop_more c n a s hz, hr]
      refine ih (a + 1) (s.emit _) (h.imp_right fun h i hi => ?_)
      have := h (i + 1) (by omega)
      rwa [Nat.add_comm, BitVec.ofNat_add, ← BitVec.add_assoc] at this

/-- Words read straight: PUTSP changes neither memory nor the input queue. -/
theorem putspLoop_straight (c : Config) (n : Nat) (a : Word) (s : State)
    (h : c.trapStringIntercept = false ∨ ∀ i < n, a + BitVec.ofNat 16 i ≠ kbsr) :
    (putspLoop c n a s).mem = s.mem ∧ (putspLoop c n a s).conin = s.conin := by
  induction n generalizing a s with
  | zero => exact ⟨rfl, rfl⟩
  | succ n ih =>
    have hr := strRead_straight c a s (h.imp_right fun h => by simpa using h 0 (Nat.succ_pos n))
    by_cases hz : (strRead c a s).1 = 0
    · rw [putspLoop_end c n a s hz, hr]
      exact ⟨rfl, rfl⟩
    · rw [putspLoop_more c n a s hz, hr]
      refine ih (a + 1) (s.emit _) (h.imp_right fun h i hi => ?_)
      have := h (i + 1) (by omega)
      rwa [Nat.add_comm, BitVec.ofNat_add, ← BitVec.add_assoc] at this

/-! ### The input routines (R147, R151) -/

theorem getcRoutine_waits {s : State} (h : s.conin = []) : getcRoutine s = s.setSuspended (some .getcWaits) := by
  simp [getcRoutine, h]

theorem getcRoutine_takes {s : State} {b : Byte} {rest : List Byte} (h : s.conin = b :: rest) :
    getcRoutine s = writeDest .r0 (zext b) ((s.setConin rest).setSuspended none) := by
  simp [getcRoutine, h]

theorem inRead_waits {s : State} (h : s.conin = []) : inRead s = s.setSuspended (some .inWaits) := by
  simp [inRead, h]

theorem inRead_takes {s : State} {b : Byte} {rest : List Byte} (h : s.conin = b :: rest) :
    inRead s = writeDest .r0 (zext b) (((s.setConin rest).setSuspended none).emit [.byte b, .flush]) := by
  simp [inRead, h]

/-! ### The trap unit as a whole (R146) -/

/-- What no routine changes: every register but R0, `pc` and the abort record. -/
theorem trapUnit_frame (c : Config) (v : BitVec 8) (s : State) :
    (∀ r, r ≠ .r0 → (trapUnit c v s).reg r = s.reg r) ∧ (trapUnit c v s).pc = s.pc ∧
    (trapUnit c v s).fault = s.fault := by
  unfold trapUnit
  split
  · rcases hq : s.conin with _ | ⟨b, rest⟩
    · simp [getcRoutine_waits hq]
    · simp +contextual [getcRoutine_takes hq, writeDest_reg]
  · simp [outRoutine]
  · have h := putsLoop_frame c memoryWords (s.reg .r0) s
    exact ⟨fun r _ => by rw [State.reg, putsRoutine, h.1]; rfl, h.2.1, h.2.2.2.2⟩
  · rcases hq : s.conin with _ | ⟨b, rest⟩
    · simp [inRoutine, inRead_waits, hq]
    · simp +contextual [inRoutine, inRead_takes (s := s.emit _) (b := b) (rest := rest) hq, writeDest_reg]
  · have h := putspLoop_frame c memoryWords (s.reg .r0) s
    exact ⟨fun r _ => by rw [State.reg, putspRoutine, h.1]; rfl, h.2.1, h.2.2.2.2⟩
  · simp [haltRoutine]
  · simp

end Sys2Proof.Machine
end

