-- ==== Sys2Proof/Tests/Slice0.lean ====
section
/-! SUPPORT. Tests. Expected results are the spec's own: the vectors V1 to V111 of 95_test_vectors.md, the worked examples of the rules,
and words written out from R64. After them, one witness for the hypotheses of each statement that has some. -/

namespace Sys2Proof.Tests

open Sys2Proof Sys2Proof.Machine Sys2Proof.Claims

/-- The reset state, changed by `f`, with the word `w` placed at `pc`. -/
def startAt (pc : Word) (w : Nat) (f : State → State) : State := (f (State.reset.setPc pc)).withFetchWord 16 w

/-- The step from `s` answers a next state with the property `p`. -/
def endsWith (s : State) (p : State → Bool) : Bool :=
  match step s with
  | .next t => p t
  | .fault _ => false
  | .refused _ => false

/-- A configuration for tests of the shared operations: IN_PROMPT = [50], HALT_NOTICE = [48, 0A], the spec's defaults (V94, V96). -/
def testConfig : Config := Config.specDefault [0x50] [0x48, 0x0A]

/-! ### Decoding: every constructor, by a word written out from R64 -/

theorem test_decode_alu :
    decode 0b0001000001000010 = .addReg .r0 .r1 .r2 ∧ decode 0b0001010010111111 = .addImm .r2 .r2 0b11111 ∧
    decode 0b0101000001000010 = .andReg .r0 .r1 .r2 ∧ decode 0b0101011011100000 = .andImm .r3 .r3 0 ∧
    decode 0b1001000001111111 = .not .r0 .r1 ∧ decode 0b1001000001000000 = .not .r0 .r1 := by decide

theorem test_decode_control :
    decode 0b0000001111111101 = .br 0b001 0b111111101 ∧ decode 0b1100000011000000 = .jmp .r3 ∧
    decode 0b1100111011111111 = .jmp .r3 ∧ decode 0b0100100000000010 = .jsr 2 ∧
    decode 0b0100000010000000 = .jsrr .r2 := by decide

theorem test_decode_memory :
    decode 0b0010001000000010 = .ld .r1 2 ∧ decode 0b1010000000000001 = .ldi .r0 1 ∧
    decode 0b0110011010111111 = .ldr .r3 .r2 0b111111 ∧ decode 0b1110000000000101 = .lea .r0 5 ∧
    decode 0b0011001000000011 = .st .r1 3 ∧ decode 0b1011100000000001 = .sti .r4 1 ∧
    decode 0b0111000110000010 = .str .r0 .r6 2 := by decide

theorem test_decode_system :
    decode 0b1111000000100101 = .trap 0x25 ∧ decode 0b1111111100100101 = .trap 0x25 ∧
    decode 0b1000111111111111 = .rti 0xFFF ∧ decode 0b1101101010111100 = .res 0xABC := by decide

theorem test_decode_pseudo : decode 0xC1C0 = Instr.ret ∧ decode 0x0000 = Instr.nop := by decide

theorem test_encode_written_out :
    encode (.addReg .r0 .r1 .r2) = 0x1042 ∧ encode (.not .r0 .r1) = 0x907F ∧ encode (.str .r0 .r6 2) = 0x7182 ∧
    encode (.jsr 2) = 0x4802 ∧ encode (.trap 0x25) = 0xF025 ∧ encode (.rti 0xFFF) = 0x8FFF := by decide

theorem test_decodeTableWord :
    decodeTableWord 16 0x1042 = some (.addReg .r0 .r1 .r2) ∧ decodeTableWord 32 0x1042 = none := by decide

/-! ### WellFormed: the Legal column refuses exactly the illegal opcodes -/

theorem test_legal_refuses_rti : (Instr.rti 0x123).legal = false := by decide
theorem test_legal_refuses_res : (Instr.res 0).legal = false := by decide
theorem test_legal_takes_trap : (Instr.trap 0x99).legal = true := by decide

/-! ### ADD, AND, NOT -/

/-- V2: signed overflow is silent. -/
theorem test_addReg_overflow :
    endsWith (startAt 0x3000 0x1042 fun s => (s.setReg .r1 0x7FFF).setReg .r2 1)
      (fun t => t.reg .r0 == 0x8000 && t.pc == 0x3001 && t.cond == .neg) = true := by decide

/-- V8: DR, SR1 and SR2 the same register. -/
theorem test_addReg_same_register :
    endsWith (startAt 0x3000 0x1241 fun s => s.setReg .r1 0x4000)
      (fun t => t.reg .r1 == 0x8000 && t.cond == .neg) = true := by decide

/-- V5, V7: the immediate is sign-extended. -/
theorem test_addImm_negative :
    endsWith (startAt 0x3000 0x14BF id) (fun t => t.reg .r2 == 0xFFFF && t.cond == .neg) = true ∧
    endsWith (startAt 0x3000 0x16F0 fun s => s.setReg .r3 0x8000)
      (fun t => t.reg .r3 == 0x7FF0 && t.cond == .pos) = true := by decide

/-- V11. -/
theorem test_andReg :
    endsWith (startAt 0x3000 0x5042 fun s => (s.setReg .r1 0xFF0F).setReg .r2 0x0FF0)
      (fun t => t.reg .r0 == 0x0F00 && t.cond == .pos) = true := by decide

/-- V12, V15: clear, and the sign-extended mask 0xFFF0. -/
theorem test_andImm :
    endsWith (startAt 0x3000 0x56E0 fun s => (s.setReg .r3 0xBEEF).setCond .neg)
      (fun t => t.reg .r3 == 0 && t.cond == .zero) = true ∧
    endsWith (startAt 0x3000 0x5070 fun s => s.setReg .r1 0x1234)
      (fun t => t.reg .r0 == 0x1230 && t.cond == .pos) = true := by decide

/-- V19: bits 5 to 0 are ignored. -/
theorem test_not :
    endsWith (startAt 0x3000 0x9040 fun s => s.setReg .r1 0x7FFF)
      (fun t => t.reg .r0 == 0x8000 && t.cond == .neg) = true := by decide

/-! ### Control -/

/-- V30, and the row BRp of the truth table for `cond = ZERO`. -/
theorem test_br :
    endsWith (startAt 0x3004 0x03FD fun s => s.setCond .pos) (fun t => t.pc == 0x3002 && t.cond == .pos) = true ∧
    endsWith (startAt 0x3000 0x0205 id) (fun t => t.pc == 0x3001) = true := by decide

/-- V34: the target wraps at the top of memory. -/
theorem test_br_wraps : endsWith (startAt 0xFFFF 0x0E01 id) (fun t => t.pc == 0x0001) = true := by decide

/-- V37. -/
theorem test_jmp :
    endsWith (startAt 0x3000 0xC0C0 fun s => (s.setReg .r3 0x4000).setCond .neg)
      (fun t => t.pc == 0x4000 && t.cond == .neg) = true := by decide

/-- V41: the smallest offset. -/
theorem test_jsr :
    endsWith (startAt 0x3000 0x4C00 id) (fun t => t.reg .r7 == 0x3001 && t.pc == 0x2C01 && t.cond == .zero) = true := by
  decide

/-- V45: JSRR R7 falls through. -/
theorem test_jsrr_r7_falls_through :
    endsWith (startAt 0x3000 0x41C0 fun s => s.setReg .r7 0x5000)
      (fun t => t.reg .r7 == 0x3001 && t.pc == 0x3001) = true := by decide

/-- V44. -/
theorem test_jsrr :
    endsWith (startAt 0x3000 0x4080 fun s => s.setReg .r2 0x5000)
      (fun t => t.reg .r7 == 0x3001 && t.pc == 0x5000) = true := by decide

/-! ### Loads, LEA, stores -/

/-- V51: LD of its own word. -/
theorem test_ld_own_word :
    endsWith (startAt 0x3000 0x23FF id) (fun t => t.reg .r1 == 0x23FF && t.cond == .pos) = true := by decide

/-- V61: LDI at the keyboard status. -/
theorem test_ldi_keyboard :
    endsWith (startAt 0x3000 0xA001 fun s => (s.storeCell 0x3002 0xFE00).setConin [0x41, 0x42])
      (fun t => t.reg .r0 == 0x8000 && t.cond == .neg && t.cell 0xFE00 == 0x8000 && t.cell 0xFE02 == 0x0041 &&
        t.conin == [0x42]) = true := by decide

/-- V60. -/
theorem test_ldi :
    endsWith (startAt 0x3000 0xA001 fun s => (s.storeCell 0x3002 0x4000).storeCell 0x4000 0xABCD)
      (fun t => t.reg .r0 == 0xABCD && t.cond == .neg) = true := by decide

/-- V65, V67: the address wraps; the base is the destination. -/
theorem test_ldr :
    endsWith (startAt 0x3000 0x669F fun s => (s.setReg .r2 0xFFF0).storeCell 0x000F 0x1111)
      (fun t => t.reg .r3 == 0x1111 && t.cond == .pos) = true ∧
    endsWith (startAt 0x3000 0x6480 fun s => (s.setReg .r2 0x4000).storeCell 0x4000 5)
      (fun t => t.reg .r2 == 5 && t.cond == .pos) = true := by decide

/-- V72, V73: LEA sets the flags from the address. -/
theorem test_lea_sets_flags :
    endsWith (startAt 0x8000 0xE1FF id) (fun t => t.reg .r0 == 0x8000 && t.cond == .neg) = true ∧
    endsWith (startAt 0x0001 0xE1FE fun s => (s.setReg .r0 0x9999).setCond .pos)
      (fun t => t.reg .r0 == 0 && t.cond == .zero && t.pc == 2) = true := by decide

/-- V75, V76. -/
theorem test_st :
    endsWith (startAt 0x3000 0x3203 fun s => (s.setReg .r1 0xBEEF).setCond .pos)
      (fun t => t.cell 0x3004 == 0xBEEF && t.cond == .pos) = true ∧
    endsWith (startAt 0x3000 0x33FF fun s => s.setReg .r1 0xF025) (fun t => t.cell 0x3000 == 0xF025) = true := by
  decide

/-- V77. -/
theorem test_sti :
    endsWith (startAt 0x3000 0xB801 fun s => (s.setReg .r4 0x1234).storeCell 0x3002 0x5000)
      (fun t => t.cell 0x5000 == 0x1234 && t.cell 0x3002 == 0x5000) = true := by decide

/-- V79: the address wraps. -/
theorem test_str_wraps :
    endsWith (startAt 0x3000 0x71BF fun s => s.setReg .r0 1) (fun t => t.cell 0xFFFF == 1 && t.pc == 0x3001) = true := by
  decide

/-- V7A, V7B: a write to a keyboard address under the two values of `DEV_WRITE`. -/
theorem test_memWrite_keyboard :
    memWrite testConfig 0xFE00 1 State.reset = .refused (.deviceWrite 0xFE00) ∧
    memWrite { testConfig with devWrite := .store } 0xFE02 1 State.reset = .next (State.reset.storeCell 0xFE02 1) :=
  ⟨rfl, rfl⟩

/-- Storing 0x0000 removes the entry, so equal memories are equal lists. -/
theorem test_memory_canonical : (State.reset.storeCell 5 7).storeCell 5 0 = State.reset := by decide

/-! ### TRAP and the trap unit -/

/-- V80, V86, V87, V89: what PUTS, PUTSP and OUT print. -/
theorem test_trap_output :
    endsWith (startAt 0x3000 0xF022 fun s =>
        (((s.setReg .r0 0x4000).storeCell 0x4000 0x41).storeCell 0x4001 0x42).storeCell 0x4003 0x43)
      (fun t => t.conout == [.byte 0x41, .byte 0x42, .flush] && t.reg .r7 == 0x3001 && t.reg .r0 == 0x4000) = true ∧
    endsWith (startAt 0x3000 0xF024 fun s => ((s.setReg .r0 0x4000).storeCell 0x4000 0x6548).storeCell 0x4001 0x6C)
      (fun t => t.conout == [.byte 0x48, .byte 0x65, .flush, .byte 0x6C, .flush]) = true ∧
    endsWith (startAt 0x3000 0xF024 fun s => (s.setReg .r0 0x4000).storeCell 0x4000 0x4100)
      (fun t => t.conout == [.byte 0x00, .byte 0x41, .flush]) = true ∧
    endsWith (startAt 0x3000 0xF021 fun s => (s.setReg .r0 0x1241).setCond .neg)
      (fun t => t.conout == [.byte 0x41, .flush] && t.cond == .neg) = true := by decide

/-- V84, V85: PUTS over 0xFE00 under the two values of `TRAP_STRING_INTERCEPT`. -/
theorem test_puts_over_kbsr :
    (putsRoutine testConfig (((State.reset.setReg .r0 0xFDFF).storeCell 0xFDFF 0x31).storeCell 0xFE00 0x58)).conout =
      [.byte 0x31, .byte 0x58, .flush] ∧
    (putsRoutine { testConfig with trapStringIntercept := true }
        (((State.reset.setReg .r0 0xFDFF).storeCell 0xFDFF 0x31).storeCell 0xFE00 0x58)).conout =
      [.byte 0x31, .flush] := by decide

/-- V90, V92, V93: GETC. -/
theorem test_getc :
    endsWith (startAt 0x3000 0xF020 fun s => (s.setConin [0x61, 0x62]).setCond .neg)
      (fun t => t.reg .r0 == 0x61 && t.cond == .pos && t.conin == [0x62] && t.conout == []) = true ∧
    endsWith (startAt 0x3000 0xF020 fun s => s.setConin [0xFF]) (fun t => t.reg .r0 == 0xFF && t.cond == .pos) = true ∧
    endsWith (startAt 0x3000 0xF020 id) (fun t => t.suspended == some .getcWaits && t.conout == []) = true := by decide

/-- V94, V96: IN with a prompt, HALT with a notice, through the trap unit with a configuration that has them. -/
theorem test_in_and_halt :
    (trapUnit testConfig 0x23 (State.reset.setConin [0x79])).conout = [.byte 0x50, .flush, .byte 0x79, .flush] ∧
    (trapUnit testConfig 0x23 (State.reset.setConin [0x79])).reg .r0 = 0x79 ∧
    (trapUnit testConfig 0x25 State.reset).conout = [.byte 0x48, .byte 0x0A, .flush] ∧
    (trapUnit testConfig 0x25 State.reset).run = .halted := by decide

/-- V96, V97, V99: HALT stops the run, bits 11 to 8 are ignored, an undefined vector only links. -/
theorem test_trap_halt_and_undefined :
    endsWith (startAt 0x3001 0xF025 id) (fun t => t.run == .halted && t.reg .r7 == 0x3002 && t.pc == 0x3002) = true ∧
    endsWith (startAt 0x3000 0xFF25 id) (fun t => t.run == .halted) = true ∧
    endsWith (startAt 0x3000 0xF000 fun s => s.setCond .neg)
      (fun t => t.run == .run && t.reg .r7 == 0x3001 && t.cond == .neg && t.conout == []) = true := by decide

/-! ### Illegal opcodes, fetch, loader -/

/-- V101. -/
theorem test_rti_aborts :
    endsWith (startAt 0x3000 0x8FFF fun s => (s.setReg .r3 7).setCond .pos)
      (fun t => t.run == .aborted && t.fault == some ⟨0x3000, 0x8FFF⟩ && t.pc == 0x3001 && t.reg .r3 == 7) = true := by
  decide

/-- V103. -/
theorem test_res_aborts :
    endsWith (startAt 0xFFFF 0xDABC id)
      (fun t => t.run == .aborted && t.fault == some ⟨0xFFFF, 0xDABC⟩ && t.pc == 0) = true := by decide

/-- V110, V111: a fetch at 0xFE00. -/
theorem test_fetch_at_kbsr :
    endsWith ((State.reset.setPc 0xFE00).setConin [0x41])
      (fun t => t.run == .aborted && t.fault == some ⟨0xFE00, 0x8000⟩ && t.cell 0xFE02 == 0x41 && t.pc == 0xFE01) = true ∧
    endsWith ((State.reset.setPc 0xFE00).storeCell 0xFE00 0xF025)
      (fun t => t.run == .run && t.cell 0xFE00 == 0 && t.pc == 0xFE01) = true := by decide

/-- S5's image file, and one that is odd. -/
theorem test_launch_image :
    (launch [[0x30, 0x00, 0x10, 0x20, 0xF0, 0x25]] []).map (fun s => s.mem) =
      some [(0x3000, 0x1020), (0x3001, 0xF025)] ∧
    (launch [[0x30, 0x00, 0x10]] []).isSome = false := by decide

/-! ### Witnesses: a concrete state and operands that meet the hypotheses of each statement that has some -/

/-- A launch state with a character queued, for the witnesses. -/
def withInput (q : List Byte) : State := State.reset.setConin q

theorem witness_IllegalWordsAreRtiAndRes :
    (decode 0x8000).legal = false ∧ (decode 0x8FFF).legal = false ∧ (decode 0xD000).legal = false ∧
    (decode 0xDFFF).legal = false ∧ (decode 0x9000).legal = true ∧ (decode 0x7FFF).legal = true := by decide

theorem witness_UnusedBitsAreIgnored :
    (0x1042 : Word) &&& 0xF020 = 0x1000 ∧ (0x5042 : Word) &&& 0xF020 = 0x5000 ∧ (0x9040 : Word) &&& 0xF000 = 0x9000 ∧
    (0xC1C0 : Word) &&& 0xF000 = 0xC000 ∧ (0x4080 : Word) &&& 0xF800 = 0x4000 ∧ (0xFF25 : Word) &&& 0xF000 = 0xF000 ∧
    ((0x2202 : Word) &&& 0xF020 ≠ 0x1000 ∧ (0x2202 : Word) &&& 0xF020 ≠ 0x5000 ∧ (0x2202 : Word) &&& 0xF000 ≠ 0x9000 ∧
      (0x2202 : Word) &&& 0xF000 ≠ 0xC000 ∧ (0x2202 : Word) &&& 0xF800 ≠ 0x4000 ∧ (0x2202 : Word) &&& 0xF000 ≠ 0xF000) := by
  decide

theorem witness_SignExtensionKeepsTheValue : (1 ≤ 1 ∧ 1 ≤ 16) ∧ (1 ≤ 16 ∧ 16 ≤ 16) := by decide

/-- One case of each clause: no flag destination, a flag destination, GETC that waits. -/
theorem witness_OnlyTheListedInstructionsChangeFlags :
    (exec (.jmp .r0) State.reset = .next (State.reset.setPc 0) ∧ flagDest (.jmp .r0) = none) ∧
    (exec (.lea .r0 0) State.reset = .next (writeDest .r0 0x3000 State.reset) ∧ flagDest (.lea .r0 0) = some .r0) ∧
    (exec (.trap 0x20) State.reset = .next (State.reset.link.setSuspended (some .getcWaits)) ∧
      flagDest (.trap 0x20) = some .r0 ∧ State.reset.conin = []) := by
  refine ⟨⟨rfl, rfl⟩, ⟨rfl, rfl⟩, rfl, rfl, rfl⟩

theorem witness_ModesAgreeOnEqualOperands :
    ((State.reset.setReg .r2 0xFFF0).reg .r2).toInt = (0b10000 : BitVec 5).toInt := by decide

theorem witness_CallThenReturnRoundTrip :
    exec (.jsr 2) State.reset = .next (State.reset.link.setPc 0x3002) ∧
    (Reg.r2 ≠ Reg.r7 ∧ exec (.jsrr .r2) State.reset = .next (State.reset.link.setPc 0)) ∧
    State.reset.link.reg .r7 = (State.reset.link.setPc 0x3002).reg .r7 ∧
    State.reset.link.reg .r7 = (State.reset.link.setPc 0).reg .r7 ∧
    exec (.jmp .r7) State.reset.link = .next (State.reset.link.setPc 0x3000) := by
  refine ⟨rfl, ⟨by decide, rfl⟩, rfl, rfl, rfl⟩

/-- The clauses of the read: any other address, no input, input. -/
theorem witness_ReadsAndTheKeyboardIntercept :
    Memory.wf State.reset.mem = true ∧ (0xFE01 : Word) ≠ kbsr ∧ kbdr ≠ kbsr ∧ (withInput []).conin = [] ∧
    (withInput [0x41]).conin = 0x41 :: [] ∧ Memory.wf (withInput [0x41]).mem = true := by decide

theorem witness_StatusReadTwice :
    Memory.wf State.reset.mem = true ∧ (withInput []).conin = [] ∧ (withInput [0x41]).conin = [0x41] ∧
    (withInput [0x41, 0x42]).conin = 0x41 :: 0x42 :: [] := by decide

theorem witness_WritesStoreOrFollowDevWrite :
    Memory.wf State.reset.mem = true ∧ ((0xFE01 : Word) ≠ kbsr ∧ (0xFE01 : Word) ≠ kbdr) ∧
    ({ testConfig with devWrite := .store } : Config).devWrite = .store ∧ testConfig.devWrite = .refuse := by decide

/-- LD, LDI and LDR: an ordinary address, and the status address, for each. -/
theorem witness_loads :
    State.reset.pcRelative (2 : BitVec 9) ≠ kbsr ∧ (State.reset.setPc 0xFDFF).pcRelative (1 : BitVec 9) = kbsr ∧
    (State.reset.storeCell 0x3001 0x4000).cell (State.reset.pcRelative (1 : BitVec 9)) ≠ kbsr ∧
    State.reset.baseOffset .r0 0 ≠ kbsr ∧ (State.reset.setReg .r1 0xFE00).baseOffset .r1 0 = kbsr := by decide

/-- ST and STR: an ordinary address, and each keyboard address. -/
theorem witness_stores :
    Memory.wf State.reset.mem = true ∧
    (State.reset.pcRelative (3 : BitVec 9) ≠ kbsr ∧ State.reset.pcRelative (3 : BitVec 9) ≠ kbdr) ∧
    (State.reset.setPc 0xFE01).pcRelative (1 : BitVec 9) = kbdr ∧
    (State.reset.setPc 0xFE01).pcRelative (-1 : BitVec 9) = kbsr ∧
    (State.reset.baseOffset .r6 2 ≠ kbsr ∧ State.reset.baseOffset .r6 2 ≠ kbdr) ∧
    (State.reset.setReg .r1 0xFE00).baseOffset .r1 0 = kbsr ∧ (State.reset.setReg .r1 0xFE00).baseOffset .r1 2 = kbdr := by
  decide

theorem witness_StoreIndirectWritesThroughThePointer :
    Memory.wf (State.reset.storeCell 0x3001 0x5000).mem = true ∧
    (State.reset.storeCell 0x3001 0x5000).pcRelative (1 : BitVec 9) ≠ kbsr ∧
    (memRead 0x3001 (State.reset.storeCell 0x3001 0x5000)).1 ≠ kbsr ∧
    (memRead 0x3001 (State.reset.storeCell 0x3001 0x5000)).1 ≠ kbdr ∧
    (memRead 0x3001 (State.reset.storeCell 0x3001 0xFE02)).1 = kbdr := by decide

/-- One store and one load of each form, at one address; and a store to 0xFE02. -/
theorem witness_LoadAfterStoreGivesTheStoredWord :
    Memory.wf (State.reset.storeCell 0x3001 0x5000).mem = true ∧ (0x5000 : Word) ≠ kbsr ∧
    IsStoreOf (.st .r1 3) 0 0x3003 State.reset ∧ IsLoadOf (.ld .r2 3) .r2 0x3003 State.reset ∧
    IsStoreOf (.sti .r1 1) 0 0x5000 (State.reset.storeCell 0x3001 0x5000) ∧
    IsLoadOf (.ldi .r2 1) .r2 0x5000 (State.reset.storeCell 0x3001 0x5000) ∧
    IsStoreOf (.str .r1 .r6 2) 0 2 State.reset ∧ IsLoadOf (.ldr .r2 .r6 2) .r2 2 State.reset ∧
    IsStoreOf (.str .r1 .r1 0) 0xFE02 kbdr (State.reset.setReg .r1 0xFE02) ∧ kbdr ≠ kbsr ∧
    SameMemory State.reset (State.reset.setPc 0x4000) :=
  ⟨by decide, by decide, .inl ⟨.r1, 3, by decide⟩, .inl ⟨3, by decide⟩, .inr (.inl ⟨.r1, 1, by decide⟩),
    .inr (.inl ⟨1, by decide⟩), .inr (.inr ⟨.r1, .r6, 2, by decide⟩), .inr (.inr ⟨.r6, 2, by decide⟩),
    .inr (.inr ⟨.r1, .r1, 0, by decide⟩), by decide, fun _ => rfl⟩

theorem witness_PollingThroughLdi :
    Memory.wf (State.reset.storeCell 0x3001 0xFE00).mem = true ∧
    State.reset.pcRelative (1 : BitVec 9) ≠ kbsr ∧
    (State.reset.storeCell 0x3001 0xFE00).cell (State.reset.pcRelative (1 : BitVec 9)) = kbsr ∧
    (State.reset.storeCell 0x3001 0xFE00).conin = [] ∧
    ((State.reset.storeCell 0x3001 0xFE00).setConin [0x41]).conin = 0x41 :: [] := by decide

/-- OUT meets the premises that shut out GETC, IN and HALT; the ends of the ranges of undefined vectors. -/
theorem witness_TrapLinksForEveryVector :
    ((0x21 : BitVec 8) ≠ 0x20 ∧ (0x21 : BitVec 8) ≠ 0x23 ∧ (0x21 : BitVec 8) ≠ 0x25 ∧ (0x21 : BitVec 8) ≠ 0x22 ∧
      (0x21 : BitVec 8) ≠ 0x24) ∧
    (0xFE01 : Word) ≠ kbsr ∧ (0xFE01 : Word) ≠ kbdr ∧ (0x20 : BitVec 8).toNat ≤ 0x20 ∧
    (0x1F : BitVec 8).toNat < 0x20 ∧ 0x25 < (0x26 : BitVec 8).toNat := by decide

theorem witness_GetcAndIn : (withInput [0x61, 0x62]).conin = 0x61 :: [0x62] ∧ State.reset.conin = [] := by decide

theorem witness_OutWritesTheLowByte : State.reset.suspended = none := rfl

/-- A string of two words at 0x4000 (V80), and the empty string. -/
theorem witness_strings :
    StringAt (((State.reset.setReg .r0 0x4000).storeCell 0x4000 0x41).storeCell 0x4001 0x42) 0x4000 [0x41, 0x42] ∧
    AvoidsKbsr 0x4000 [0x41, 0x42] ∧ StringAt State.reset 0 [] ∧ AvoidsKbsr 0 [] := by
  refine ⟨⟨by decide, ?_, by decide⟩, ?_, ⟨by decide, ?_, by decide⟩, ?_⟩
  · intro i w h
    match i with
    | 0 =>
      simp only [List.getElem?_cons_zero, Option.some.injEq] at h
      subst h
      decide
    | 1 =>
      simp only [List.getElem?_cons_succ, List.getElem?_cons_zero, Option.some.injEq] at h
      subst h
      decide
    | i + 2 => simp at h
  · intro i hi
    match i with
    | 0 => decide
    | 1 => decide
    | 2 => decide
    | i + 3 => simp at hi
  · intro i w h
    simp at h
  · intro i hi
    simp only [List.length_nil, Nat.le_zero] at hi
    subst hi
    decide

theorem witness_StringWordsAtTheStatusAddress :
    testConfig.trapStringIntercept = false ∧
    ({ testConfig with trapStringIntercept := true } : Config).trapStringIntercept = true ∧
    (State.reset.setReg .r0 0xFE00).conin = [] ∧
    (State.reset.setReg .r0 0xFE00).reg .r0 + BitVec.ofNat 16 ([] : List Word).length = kbsr := by decide

/-- A memory whose cells from `lo` on, `n` of them, all hold 0x0001. -/
def onesFrom (lo n : Nat) : Memory := (List.range' lo n).map fun a => (a, 1)

theorem get_onesFrom (n : Nat) : ∀ (lo a : Nat), lo ≤ a → a < lo + n → Memory.get (onesFrom lo n) a = 1 := by
  induction n with
  | zero => intro lo a h h'; omega
  | succ n ih =>
    intro lo a h h'
    simp only [onesFrom, List.range'_succ, List.map_cons, Memory.get]
    split
    · rfl
    · exact ih (lo + 1) a (by omega) (by omega)

theorem witness_UnterminatedStringNeverCompletes :
    ((State.reset.setSuspended (some (.putsAt 0))).run = .run ∧
      (State.reset.setSuspended (some (.putsAt 0))).suspended.isSome = true) ∧
    testConfig.trapStringIntercept = false ∧
    ∀ a, ({ State.reset with mem := onesFrom 0 65536 } : State).cell a ≠ 0 := by
  refine ⟨⟨rfl, rfl⟩, rfl, fun a => ?_⟩
  have h : ({ State.reset with mem := onesFrom 0 65536 } : State).cell a = 1 :=
    get_onesFrom 65536 0 a.toNat (Nat.zero_le _) (by have := a.isLt; omega)
  rw [h]
  decide

theorem witness_UndefinedVectorOnlyLinks : (0x1F : BitVec 8).toNat < 0x20 ∧ 0x25 < (0x26 : BitVec 8).toNat := by decide

theorem witness_WaitChangesNothingAndArrivalCompletes :
    State.reset.run = .run ∧ State.reset.suspended = none ∧ State.reset.conin = [] := by decide

theorem witness_StepRunsTheDecodedInstruction :
    State.reset.run = .run ∧ State.reset.suspended = none ∧ State.reset.pc ≠ kbsr ∧
    decode (State.reset.cell State.reset.pc) = .br 0 0 ∧ decode (memRead State.reset.pc State.reset).1 = .br 0 0 := by decide

theorem witness_PlacedWordRunsNext : Memory.wf State.reset.mem = true ∧ State.reset.pc ≠ kbsr := by decide

theorem witness_FetchAtTheStatusAddress :
    Memory.wf (State.reset.setPc 0xFE00).mem = true ∧ (State.reset.setPc 0xFE00).run = .run ∧
    (State.reset.setPc 0xFE00).suspended = none ∧ (State.reset.setPc 0xFE00).pc = kbsr ∧
    (State.reset.setPc 0xFE00).conin = [] ∧ ((State.reset.setPc 0xFE00).setConin [0x41]).conin = 0x41 :: [] := by decide

/-- `ST R1,#0` at 0x3000. -/
theorem witness_StoredWordIsFetchedNext :
    Memory.wf (State.reset.storeCell 0x3000 0x3200).mem = true ∧ State.reset.pc ≠ kbsr ∧ State.reset.pc + 1 ≠ kbsr ∧
    State.reset.pc + 1 ≠ kbdr ∧
    (State.reset.storeCell 0x3000 0x3200).cell 0x3000 = 0b0011#4 ++ Reg.r1.bits ++ 0#9 := by decide

theorem witness_TerminalStatesAreForEver :
    (State.reset.setRun .halted).run ≠ .run ∧ (raiseIllegalOpcode 0x3000 0x8000 State.reset).run ≠ .run := by decide

/-- HALT, RTI and a legal instruction. -/
theorem witness_OnlyHaltHaltsAndOnlyIllegalAborts :
    State.reset.run = .run ∧ exec (.trap 0x25) State.reset = .next (haltRoutine Config.machine State.reset.link) ∧
    exec (.rti 0) State.reset = .next (raiseIllegalOpcode 0x2FFF 0x8000 State.reset) ∧
    (Instr.lea .r0 0).legal = true ∧ exec (.lea .r0 0) State.reset = .next (writeDest .r0 0x3000 State.reset) :=
  ⟨rfl, rfl, rfl, rfl, rfl⟩

/-- A state that meets the invariant and has a next state: a step from reset, memory empty, is a no-op (R70). -/
theorem witness_EveryStepKeepsTheInvariant :
    Memory.wf State.reset.mem = true ∧ (State.reset.fault.isSome = true ↔ State.reset.run = .aborted) ∧
    (State.reset.suspended.isSome = true → State.reset.run = .run) ∧ step State.reset = .next (State.reset.setPc 0x3001) := by
  refine ⟨rfl, by decide, by decide, rfl⟩

theorem witness_ConsoleOutputOnlyGrows : Reaches State.reset ((State.reset.setPc 0x3001).supply 0x41) :=
  .move (.move .start (.step (t := State.reset.setPc 0x3001) rfl)) (.supply 0x41 _)

/-- A step that takes a character. -/
theorem witness_InputIsTakenFromTheHead :
    exec (.trap 0x20) (withInput [0x61]) =
      .next (writeDest .r0 0x61 (((withInput [0x61]).link.setConin []).setSuspended none)) ∧
    (writeDest .r0 0x61 (((withInput [0x61]).link.setConin []).setSuspended none)).conin ≠ (withInput [0x61]).conin := by
  refine ⟨rfl, by decide⟩

theorem witness_LaunchLoadsTheImage :
    (0x3000 : Word).toNat + ([0x1020, 0xF025] : List Word).length ≤ 65536 ∧
    (0xFFFF : Word).toNat + ([0x1020] : List Word).length ≤ 65536 := by decide

theorem witness_LaunchMeetsTheInvariant :
    launch [[0x30, 0x00, 0x10, 0x20, 0xF0, 0x25]] [0x41] =
      some (((State.reset.setConin [0x41]).storeCell 0x3000 0x1020).storeCell 0x3001 0xF025) := by decide

end Sys2Proof.Tests
end

section
/-! PROOFS. The scope family (spec 00_scope.md): sign extension (R16), and the word the host places (R12, R170). -/

namespace Sys2Proof.Machine

/-! ### Sign extension (R16) -/

/-- The bits of `sext`: the field's own below its width, its top bit from there on. -/
theorem getElem_sext {n : Nat} (v : BitVec n) {i : Nat} (hi : i < 16) :
    (sext v)[i] = if i < n then v.getLsbD i else v.msb := by
  simp [sext, ← BitVec.getLsbD_eq_getElem, BitVec.getLsbD_signExtend, hi]

/-- Sign extension of a field that fits a word keeps its two's-complement value. -/
theorem toInt_sext {n : Nat} (v : BitVec n) (hn : n ≤ 16) : (sext v).toInt = v.toInt :=
  BitVec.toInt_signExtend_of_le hn

/-- The low `n` bits of a word, as R16's formula writes them. -/
theorem getElem_ofNat_mod_two_pow (v : Word) (n : Nat) {i : Nat} (hi : i < 16) :
    (BitVec.ofNat 16 (v.toNat % 2 ^ n))[i] = (decide (i < n) && v[i]) := by
  rw [← BitVec.getLsbD_eq_getElem, BitVec.getLsbD_ofNat, Nat.testBit_mod_two_pow, BitVec.testBit_toNat]
  simp [hi]

/-- The bits R16 fills: those of a word from `n` on. -/
theorem getElem_ones_shiftLeft (n : Nat) {i : Nat} (hi : i < 16) : (0xFFFF#16 <<< n)[i] = !decide (i < n) := by
  have hones : 0xFFFF#16 = BitVec.allOnes 16 := rfl
  rw [hones, BitVec.getElem_shiftLeft, BitVec.getElem_allOnes, Bool.and_true]

/-- R16's formula: below `n` both sides are the field's bits, from `n` on both are its top bit. -/
theorem sext_setWidth (n : Nat) (v : Word) (hn : 1 ≤ n) :
    sext (v.setWidth n) =
      if v.getLsbD (n - 1) then (0xFFFF#16 <<< n) ||| BitVec.ofNat 16 (v.toNat % 2 ^ n)
      else BitVec.ofNat 16 (v.toNat % 2 ^ n) := by
  have htop : (v.setWidth n).msb = v.getLsbD (n - 1) := by
    simp [BitVec.msb_setWidth, show 0 < n by omega]
  split
  next hset =>
    ext i hi
    rw [getElem_sext _ hi, htop, hset, BitVec.getElem_or, getElem_ones_shiftLeft n hi, getElem_ofNat_mod_two_pow v n hi]
    by_cases hin : i < n <;> simp [hin, hi]
  next hclear =>
    ext i hi
    rw [getElem_sext _ hi, htop, Bool.eq_false_of_not_eq_true hclear, getElem_ofNat_mod_two_pow v n hi]
    by_cases hin : i < n <;> simp [hin, hi]

/-! ### A running step, and the word the host places (R170, R12) -/

/-- In RUN with no routine unfinished, a step executes the word it fetches. -/
theorem step_of_run {s : State} (hrun : s.run = .run) (hsus : s.suspended = none) :
    step s = exec (decode (fetch s).1) (fetch s).2 := by
  simp only [step, hrun, hsus]

/-- The same off 0xFE00, where the fetch reads a plain cell. -/
theorem step_of_run_plain {s : State} (hrun : s.run = .run) (hsus : s.suspended = none) (hpc : s.pc ≠ kbsr) :
    step s = exec (decode (s.cell s.pc)) (s.setPc (s.pc + 1)) := by
  rw [step_of_run hrun hsus, fetch_plain hpc]

@[simp] theorem State.pc_withFetchWord (s : State) (nbits w : Nat) : (s.withFetchWord nbits w).pc = s.pc := rfl
@[simp] theorem State.run_withFetchWord (s : State) (nbits w : Nat) : (s.withFetchWord nbits w).run = .run := rfl
@[simp] theorem State.suspended_withFetchWord (s : State) (nbits w : Nat) :
    (s.withFetchWord nbits w).suspended = none := rfl

/-- A whole word placed at `pc` is what the cell there reads. -/
theorem State.cell_withFetchWord_pc (s : State) (w : Word) (hwf : Memory.wf s.mem = true) :
    (s.withFetchWord 16 w.toNat).cell s.pc = w := by
  have hword : BitVec.ofNat 16 (w.toNat % 2 ^ 16) = w := by
    rw [Nat.mod_eq_of_lt w.isLt, BitVec.ofNat_toNat, BitVec.setWidth_eq]
  rw [State.withFetchWord, hword]
  exact State.cell_storeCell_self s s.pc w hwf

/-! ### The obligations -/

/-- Settles O6: the formula bit by bit, the value by the library's law of `signExtend`. -/
theorem signExtensionKeepsTheValue : Obligations.SignExtensionKeepsTheValue := by
  intro n v hn hn16
  exact ⟨sext_setWidth n v hn, toInt_sext (v.setWidth n) hn16⟩

/-- Settles O48: the placed state runs, stands at the same `pc`, and reads the placed word there. -/
theorem placedWordRunsNext : Obligations.PlacedWordRunsNext := by
  intro s w hwf hpc
  rw [step_of_run_plain (s.run_withFetchWord 16 w.toNat) (s.suspended_withFetchWord 16 w.toNat) hpc,
    State.pc_withFetchWord, s.cell_withFetchWord_pc w hwf]

end Sys2Proof.Machine
end

section
/-! PROOFS. The state family (spec 10_state.md): the reset table (R36), the invariant of every run (R30, R31, R184, R186), the output log
that only grows (R34) and the input queue that is taken from its head (R33). What one step can do is said once, in `exec_cases` and
`step_cases`, over the relation `Continues`. -/

namespace Sys2Proof.Machine

/-! ### The reset state (R36) -/

@[simp] theorem State.reg_reset (r : Reg) : State.reset.reg r = 0 := by
  cases r <;> rfl

@[simp] theorem State.cell_reset (a : Word) : State.reset.cell a = 0 := rfl

/-! ### Work that neither halts nor aborts -/

/-- `t` comes of `s` by work that neither halts nor aborts: the run state and the abort record are the same, memory stays canonical, input
went only from the head of the queue, and output was only appended. -/
structure Continues (s t : State) : Prop where
  run : t.run = s.run
  fault : t.fault = s.fault
  memWf : Memory.wf s.mem = true → Memory.wf t.mem = true
  conin : t.conin <:+ s.conin
  conout : s.conout <+: t.conout

/-- A change of registers, `pc`, flags and `suspended` alone. -/
theorem Continues.of_eq {s t : State} (hrun : t.run = s.run) (hfault : t.fault = s.fault) (hmem : t.mem = s.mem)
    (hin : t.conin = s.conin) (hout : t.conout = s.conout) : Continues s t where
  run := hrun
  fault := hfault
  memWf h := hmem ▸ h
  conin := hin ▸ List.suffix_rfl
  conout := hout ▸ List.prefix_rfl

@[refl] theorem Continues.refl (s : State) : Continues s s := .of_eq rfl rfl rfl rfl rfl

@[trans] theorem Continues.trans {s t u : State} (h : Continues s t) (h' : Continues t u) : Continues s u where
  run := h'.run.trans h.run
  fault := h'.fault.trans h.fault
  memWf hw := h'.memWf (h.memWf hw)
  conin := h'.conin.trans h.conin
  conout := h.conout.trans h'.conout

theorem continues_setSuspended (o : Option Suspended) (s : State) : Continues s (s.setSuspended o) :=
  .of_eq rfl rfl rfl rfl rfl

theorem continues_link (s : State) : Continues s s.link := .of_eq rfl rfl rfl rfl rfl

theorem continues_writeDest (r : Reg) (v : Word) (s : State) : Continues s (writeDest r v s) :=
  .of_eq rfl rfl rfl rfl rfl

theorem continues_emit (es : List ConEvent) (s : State) : Continues s (s.emit es) where
  run := rfl
  fault := rfl
  memWf := id
  conin := List.suffix_rfl
  conout := List.prefix_append _ _

theorem continues_storeCell (a v : Word) (s : State) : Continues s (s.storeCell a v) where
  run := rfl
  fault := rfl
  memWf := s.wf_storeCell a v
  conin := List.suffix_rfl
  conout := List.prefix_rfl

/-- A character taken from the head of the queue. -/
theorem continues_setConin {s : State} {b : Byte} {rest : List Byte} (h : s.conin = b :: rest) :
    Continues s (s.setConin rest) where
  run := rfl
  fault := rfl
  memWf := id
  conin := h ▸ List.suffix_cons b rest
  conout := List.prefix_rfl

theorem memRead_conin_suffix (a : Word) (s : State) : (memRead a s).2.conin <:+ s.conin := by
  rcases memRead_cases a s with ⟨_, h⟩ | ⟨_, _, h⟩ | ⟨_, b, rest, hq, h⟩
  · simp [h]
  · simp [h]
  · simp [h, hq]

theorem continues_memRead (a : Word) (s : State) : Continues s (memRead a s).2 := by
  obtain ⟨-, -, -, hrun, hfault, hout, -⟩ := memRead_frame a s
  exact ⟨hrun, hfault, memRead_wf a, memRead_conin_suffix a s, hout ▸ List.prefix_rfl⟩

theorem continues_fetch (s : State) : Continues s (fetch s).2 :=
  (continues_memRead s.pc s).trans (.of_eq rfl rfl rfl rfl rfl)

theorem continues_loadInto (dr : Reg) (ea : Word) (s : State) : Continues s (loadInto dr ea s) :=
  (continues_memRead ea s).trans (continues_writeDest ..)

/-- A write that is not refused is the plain store. -/
theorem memWrite_eq_next {c : Config} {a v : Word} {s t : State} (h : memWrite c a v s = .next t) :
    t = s.storeCell a v := by
  rcases memWrite_cases c a v s with hw | ⟨-, -, hw⟩
  · rw [hw] at h
    cases h
    rfl
  · rw [hw] at h
    cases h

/-! ### The routines of the trap unit (R146 to R152, R184) -/

theorem continues_strRead (c : Config) (a : Word) (s : State) : Continues s (strRead c a s).2 := by
  rcases strRead_cases c a s with h | ⟨-, -, h⟩
  · rw [h]
  · rw [h]
    exact continues_memRead a s

theorem continues_putsLoop (c : Config) (n : Nat) (a : Word) (s : State) : Continues s (putsLoop c n a s) := by
  induction n generalizing a s with
  | zero => exact continues_setSuspended _ s
  | succ n ih =>
    have hread := continues_strRead c a s
    by_cases h : (strRead c a s).1 = 0
    · rw [putsLoop_end c n a s h]
      exact (hread.trans (continues_emit _ _)).trans (continues_setSuspended _ _)
    · rw [putsLoop_more c n a s h]
      exact (hread.trans (continues_emit _ _)).trans (ih _ _)

theorem continues_putspLoop (c : Config) (n : Nat) (a : Word) (s : State) : Continues s (putspLoop c n a s) := by
  induction n generalizing a s with
  | zero => exact continues_setSuspended _ s
  | succ n ih =>
    have hread := continues_strRead c a s
    by_cases h : (strRead c a s).1 = 0
    · rw [putspLoop_end c n a s h]
      exact hread.trans (continues_setSuspended _ _)
    · rw [putspLoop_more c n a s h]
      exact (hread.trans (continues_emit _ _)).trans (ih _ _)

theorem continues_getcRoutine (s : State) : Continues s (getcRoutine s) := by
  rcases hq : s.conin with _ | ⟨b, rest⟩
  · rw [getcRoutine_waits hq]
    exact continues_setSuspended _ s
  · rw [getcRoutine_takes hq]
    exact ((continues_setConin hq).trans (continues_setSuspended _ _)).trans (continues_writeDest ..)

theorem continues_inRead (s : State) : Continues s (inRead s) := by
  rcases hq : s.conin with _ | ⟨b, rest⟩
  · rw [inRead_waits hq]
    exact continues_setSuspended _ s
  · rw [inRead_takes hq]
    exact (((continues_setConin hq).trans (continues_setSuspended _ _)).trans (continues_emit _ _)).trans
      (continues_writeDest ..)

theorem continues_resumeRoutine (c : Config) (r : Suspended) (s : State) : Continues s (resumeRoutine c r s) := by
  cases r with
  | getcWaits => exact continues_getcRoutine s
  | inWaits => exact continues_inRead s
  | putsAt a => exact continues_putsLoop c memoryWords a s
  | putspAt a => exact continues_putspLoop c memoryWords a s

@[simp] theorem haltRoutine_run (c : Config) (s : State) : (haltRoutine c s).run = .halted := rfl
@[simp] theorem haltRoutine_fault (c : Config) (s : State) : (haltRoutine c s).fault = s.fault := rfl
@[simp] theorem haltRoutine_suspended (c : Config) (s : State) : (haltRoutine c s).suspended = s.suspended := rfl

/-- The vector table read backwards: each routine is selected by one vector. -/
theorem trapUnit_cases (c : Config) (v : BitVec 8) (s : State) :
    (v = 0x20 ∧ trapUnit c v s = getcRoutine s) ∨ (v = 0x21 ∧ trapUnit c v s = outRoutine s) ∨
    (v = 0x22 ∧ trapUnit c v s = putsRoutine c s) ∨ (v = 0x23 ∧ trapUnit c v s = inRoutine c s) ∨
    (v = 0x24 ∧ trapUnit c v s = putspRoutine c s) ∨ (v = 0x25 ∧ trapUnit c v s = haltRoutine c s) ∨
    (v ≠ 0x25 ∧ trapUnit c v s = s) := by
  unfold trapUnit routineOf
  split_ifs <;> simp_all

/-- Every routine but HALT continues. -/
theorem continues_trapUnit (c : Config) {v : BitVec 8} (s : State) (hv : v ≠ 0x25) : Continues s (trapUnit c v s) := by
  rcases trapUnit_cases c v s with ⟨-, h⟩ | ⟨-, h⟩ | ⟨-, h⟩ | ⟨-, h⟩ | ⟨-, h⟩ | ⟨he, -⟩ | ⟨-, h⟩
  · exact h ▸ continues_getcRoutine s
  · exact h ▸ continues_emit _ s
  · exact h ▸ continues_putsLoop c memoryWords _ s
  · exact h ▸ (continues_emit _ s).trans (continues_inRead _)
  · exact h ▸ continues_putspLoop c memoryWords _ s
  · exact absurd he hv
  · rw [h]

/-- The routines that can take input: GETC, IN, and a string routine that reads through the intercept. -/
theorem trapUnit_conin_cases (c : Config) (v : BitVec 8) (s : State) :
    (trapUnit c v s).conin = s.conin ∨ v = 0x20 ∨ v = 0x23 ∨
      (c.trapStringIntercept = true ∧ (v = 0x22 ∨ v = 0x24)) := by
  rcases trapUnit_cases c v s with ⟨hv, -⟩ | ⟨-, h⟩ | ⟨hv, h⟩ | ⟨hv, -⟩ | ⟨hv, h⟩ | ⟨-, h⟩ | ⟨-, h⟩
  · exact .inr (.inl hv)
  · exact .inl (h ▸ rfl)
  · cases hc : c.trapStringIntercept
    · exact .inl (h ▸ (putsLoop_straight c memoryWords _ s (.inl hc)).2)
    · exact .inr (.inr (.inr ⟨rfl, .inl hv⟩))
  · exact .inr (.inr (.inl hv))
  · cases hc : c.trapStringIntercept
    · exact .inl (h ▸ (putspLoop_straight c memoryWords _ s (.inl hc)).2)
    · exact .inr (.inr (.inr ⟨rfl, .inr hv⟩))
  · exact .inl (h ▸ rfl)
  · exact .inl (congrArg State.conin h)

/-! ### What an instruction and a step can do (R170) -/

/-- The instructions that read an operand with `MemRead` (R126, R127, R128, R131). -/
def ReadsData (i : Instr) : Prop :=
  (∃ dr off, i = .ld dr off) ∨ (∃ dr off, i = .ldi dr off) ∨ (∃ dr base off, i = .ldr dr base off) ∨
  (∃ sr off, i = .sti sr off)

/-- An instruction that answers a next state is a TRAP, is illegal and aborts, or is another legal one and continues, taking input only
through a data read. -/
theorem exec_cases {i : Instr} {s t : State} (h : exec i s = .next t) :
    (∃ v, i = .trap v ∧ t = trapUnit Config.machine v s.link) ∨
    (i.legal = false ∧ ∃ a w, t = raiseIllegalOpcode a w s) ∨
    (i.legal = true ∧ (∀ v, i ≠ .trap v) ∧ Continues s t ∧ (t.conin = s.conin ∨ ReadsData i)) := by
  cases i
  case trap v =>
    cases h
    exact .inl ⟨v, rfl, rfl⟩
  case rti | res =>
    cases h
    exact .inr (.inl ⟨rfl, _, _, rfl⟩)
  all_goals refine .inr (.inr ⟨rfl, nofun, ?_⟩)
  case addReg | addImm | andReg | andImm | not | lea | jmp | jsr | jsrr =>
    cases h
    exact ⟨.of_eq rfl rfl rfl rfl rfl, .inl rfl⟩
  case br nzp off =>
    cases h
    split
    · exact ⟨.of_eq rfl rfl rfl rfl rfl, .inl rfl⟩
    · exact ⟨.refl s, .inl rfl⟩
  case ld dr off =>
    cases h
    exact ⟨continues_loadInto .., .inr (.inl ⟨dr, off, rfl⟩)⟩
  case ldi dr off =>
    cases h
    exact ⟨(continues_memRead _ s).trans (continues_loadInto ..), .inr (.inr (.inl ⟨dr, off, rfl⟩))⟩
  case ldr dr base off =>
    cases h
    exact ⟨continues_loadInto .., .inr (.inr (.inr (.inl ⟨dr, base, off, rfl⟩)))⟩
  case st | str =>
    obtain rfl := memWrite_eq_next h
    exact ⟨continues_storeCell .., .inl rfl⟩
  case sti sr off =>
    obtain rfl := memWrite_eq_next h
    exact ⟨(continues_memRead _ s).trans (continues_storeCell ..), .inr (.inr (.inr (.inr ⟨sr, off, rfl⟩)))⟩

/-- The same by how it ends: HALT halts, an illegal instruction aborts, any other continues. -/
theorem exec_ending {i : Instr} {s t : State} (h : exec i s = .next t) :
    (i = .trap 0x25 ∧ t = haltRoutine Config.machine s.link) ∨
    (i.legal = false ∧ ∃ a w, t = raiseIllegalOpcode a w s) ∨
    (i.legal = true ∧ i ≠ .trap 0x25 ∧ Continues s t) := by
  rcases exec_cases h with ⟨v, rfl, rfl⟩ | habort | ⟨hlegal, htrap, hc, -⟩
  · by_cases hv : v = 0x25
    · subst hv
      exact .inl ⟨rfl, rfl⟩
    · exact .inr (.inr ⟨rfl, by simpa using hv, (continues_link s).trans (continues_trapUnit _ _ hv)⟩)
  · exact .inr (.inl habort)
  · exact .inr (.inr ⟨hlegal, htrap 0x25, hc⟩)

/-- A step stands still in a terminal state; in RUN it continues, or it halts or aborts with no routine unfinished. -/
theorem step_cases {s t : State} (h : step s = .next t) :
    (s.run ≠ .run ∧ t = s) ∨ (s.run = .run ∧ Continues s t) ∨
    (∃ s₁, Continues s s₁ ∧ s₁.run = .run ∧ s₁.suspended = none ∧
      (t = haltRoutine Config.machine s₁ ∨ ∃ a w, t = raiseIllegalOpcode a w s₁)) := by
  cases hrun : s.run
  case halted | aborted =>
    rw [step, hrun] at h
    cases h
    exact .inl ⟨nofun, rfl⟩
  cases hsus : s.suspended with
  | some r =>
    simp only [step, hrun, hsus] at h
    cases h
    exact .inr (.inl ⟨rfl, continues_resumeRoutine _ r s⟩)
  | none =>
    rw [step_of_run hrun hsus] at h
    have hfetch := continues_fetch s
    have hnone : (fetch s).2.suspended = none := by simp [fetch_frame s, hsus]
    rcases exec_ending h with ⟨-, rfl⟩ | ⟨-, a, w, rfl⟩ | ⟨-, -, hc⟩
    · exact .inr (.inr ⟨_, hfetch.trans (continues_link _), hfetch.run.trans hrun, hnone, .inl rfl⟩)
    · exact .inr (.inr ⟨_, hfetch, hfetch.run.trans hrun, hnone, .inr ⟨a, w, rfl⟩⟩)
    · exact .inr (.inl ⟨rfl, hfetch.trans hc⟩)

/-! ### What every step keeps -/

/-- In RUN the invariant leaves `suspended` free. -/
theorem State.inv_iff_of_run {s : State} (hrun : s.run = .run) : s.Inv ↔ Memory.wf s.mem = true ∧ s.fault = none := by
  constructor
  · intro ⟨hmem, hfault, _⟩
    exact ⟨hmem, by simpa [hrun] using hfault⟩
  · intro ⟨hmem, hfault⟩
    exact ⟨hmem, by simp [hrun, hfault], fun _ => hrun⟩

/-- Work that neither halts nor aborts keeps the invariant of a running state, wherever it leaves a routine. -/
theorem Continues.inv {s t : State} (h : Continues s t) (hrun : s.run = .run) (hinv : s.Inv) : t.Inv := by
  obtain ⟨hmem, hfault⟩ := (State.inv_iff_of_run hrun).1 hinv
  exact (State.inv_iff_of_run (h.run.trans hrun)).2 ⟨h.memWf hmem, h.fault.trans hfault⟩

theorem haltRoutine_inv (c : Config) {s : State} (hrun : s.run = .run) (hsus : s.suspended = none) (hinv : s.Inv) :
    (haltRoutine c s).Inv := by
  obtain ⟨hmem, hfault⟩ := (State.inv_iff_of_run hrun).1 hinv
  exact ⟨hmem, by simp [hfault], by simp [hsus]⟩

theorem raiseIllegalOpcode_inv (a w : Word) {s : State} (hsus : s.suspended = none) (hinv : s.Inv) :
    (raiseIllegalOpcode a w s).Inv :=
  ⟨hinv.memWf, by simp, by simp [hsus]⟩

theorem step_inv {s t : State} (hinv : s.Inv) (h : step s = .next t) : t.Inv := by
  rcases step_cases h with ⟨-, rfl⟩ | ⟨hrun, hc⟩ | ⟨s₁, hc, hrun, hsus, hend⟩
  · exact hinv
  · exact hc.inv hrun hinv
  · have hinv₁ : s₁.Inv := hc.inv (hc.run.symm.trans hrun) hinv
    rcases hend with rfl | ⟨a, w, rfl⟩
    · exact haltRoutine_inv _ hrun hsus hinv₁
    · exact raiseIllegalOpcode_inv a w hsus hinv₁

/-- An arriving character touches nothing the invariant speaks of. -/
theorem State.inv_supply {s : State} (b : Byte) (hinv : s.Inv) : (s.supply b).Inv :=
  ⟨hinv.memWf, hinv.faultIff, hinv.suspendedRuns⟩

theorem step_conin {s t : State} (h : step s = .next t) : t.conin <:+ s.conin := by
  rcases step_cases h with ⟨-, rfl⟩ | ⟨-, hc⟩ | ⟨s₁, hc, -, -, rfl | ⟨a, w, rfl⟩⟩
  · exact List.suffix_rfl
  · exact hc.conin
  · exact hc.conin
  · exact hc.conin

theorem step_conout {s t : State} (h : step s = .next t) : s.conout <+: t.conout := by
  rcases step_cases h with ⟨-, rfl⟩ | ⟨-, hc⟩ | ⟨s₁, hc, -, -, rfl | ⟨a, w, rfl⟩⟩
  · exact List.prefix_rfl
  · exact hc.conout
  · exact hc.conout.trans (List.prefix_append _ _)
  · exact hc.conout

theorem Move.conout {s t : State} (m : Move s t) : s.conout <+: t.conout := by
  cases m with
  | step h => exact step_conout h
  | supply b => exact List.prefix_rfl

theorem Reaches.conout {s t : State} (h : Reaches s t) : s.conout <+: t.conout := by
  induction h with
  | start => exact List.prefix_rfl
  | move _ m ih => exact ih.trans m.conout

/-! ### The obligations -/

/-- Settles O55: the three kinds of step, and the arrival. -/
theorem everyStepKeepsTheInvariant : Obligations.EveryStepKeepsTheInvariant :=
  ⟨fun _ _ => step_inv, fun _ b => State.inv_supply b⟩

/-- Settles O56, by induction on the run. -/
theorem consoleOutputOnlyGrows : Obligations.ConsoleOutputOnlyGrows :=
  fun _ _ => Reaches.conout

/-- Settles O52: in each of the three endings the run state is a different one. -/
theorem onlyHaltHaltsAndOnlyIllegalAborts : Obligations.OnlyHaltHaltsAndOnlyIllegalAborts := by
  intro i s t hrun h
  rcases exec_ending h with ⟨rfl, rfl⟩ | ⟨hillegal, a, w, rfl⟩ | ⟨hlegal, hne, hc⟩
  · exact ⟨by simp, by simp [Instr.legal], fun _ => rfl⟩
  · have hne : i ≠ .trap 0x25 := by
      rintro rfl
      cases hillegal
    exact ⟨iff_of_false nofun hne, iff_of_true rfl hillegal, by simp [hillegal]⟩
  · have hrun' : t.run = .run := hc.run.trans hrun
    exact ⟨iff_of_false (by simp [hrun']) hne, by simp [hrun', hlegal], fun _ => hc.fault⟩

/-- Settles O57: the suffix for every step; the list from what TRAP and the other instructions can do. -/
theorem inputIsTakenFromTheHead : Obligations.InputIsTakenFromTheHead := by
  refine ⟨fun _ _ => step_conin, fun i s t h hne => ?_⟩
  rcases exec_cases h with ⟨v, rfl, rfl⟩ | ⟨-, a, w, rfl⟩ | ⟨-, -, -, hin⟩
  · have htakes := (trapUnit_conin_cases Config.machine v s.link).resolve_left hne
    simpa using htakes
  · exact absurd rfl hne
  · rcases hin.resolve_left hne with hld | hldi | hldr | hsti
    · exact .inl hld
    · exact .inr (.inl hldi)
    · exact .inr (.inr (.inl hldr))
    · exact .inr (.inr (.inr (.inl hsti)))

/-- Settles O8: each field of `State.reset`, whatever the queue. -/
theorem resetIsTheTable : Obligations.ResetIsTheTable := by
  intro input
  exact ⟨fun r => State.reg_reset r, rfl, rfl, rfl, rfl, rfl, fun a => State.cell_reset a, rfl, rfl⟩

/-- Settles O54: the reset state runs, its memory is empty and it has no abort record. -/
theorem resetMeetsTheInvariant : Obligations.ResetMeetsTheInvariant :=
  (State.inv_iff_of_run rfl).2 ⟨reset_mem_wf, rfl⟩

end Sys2Proof.Machine
end

section
/-! PROOFS. The memory family (spec 20_memory.md): the read of 0xFE00 (R42 to R44), writes (R45, R46), polling through LDI (R43), string
words at 0xFE00 (R54), the fetch there (R53), fetch coherence (R58), and what can stop a step (R46, R174). -/

namespace Sys2Proof.Machine

open Sys2Proof.Claims

/-! ### The state after a plain store (R45), and after a character has moved to KBDR (R42) -/

/-- A plain store changes its cell and nothing else. -/
theorem onlyCell_storeCell (a v : Word) {s : State} (hwf : Memory.wf s.mem = true) : OnlyCell a v s (s.storeCell a v) :=
  ⟨s.cell_storeCell_self a v hwf, s.cell_storeCell_ne a v, fun _ _ => rfl, rfl, rfl, ⟨rfl, rfl⟩, rfl, rfl, rfl⟩

/-- The state the intercept leaves when `c` was pending before `rest`. -/
def keyTaken (c : Byte) (rest : List Byte) (s : State) : State :=
  ((s.storeCell kbsr statusPending).storeCell kbdr (c.setWidth 16)).setConin rest

@[simp] theorem keyTaken_conin (c : Byte) (rest : List Byte) (s : State) : (keyTaken c rest s).conin = rest := rfl

theorem keyTaken_cell_kbdr (c : Byte) (rest : List Byte) {s : State} (hwf : Memory.wf s.mem = true) :
    (keyTaken c rest s).cell kbdr = BitVec.ofNat 16 c.toNat := by
  rw [BitVec.ofNat_toNat]
  exact State.cell_storeCell_self _ kbdr _ (s.wf_storeCell kbsr _ hwf)

theorem keyTaken_cell_kbsr (c : Byte) (rest : List Byte) {s : State} (hwf : Memory.wf s.mem = true) :
    (keyTaken c rest s).cell kbsr = 0x8000 := by
  rw [keyTaken, State.cell_setConin, State.cell_storeCell_ne _ _ _ _ (by decide)]
  exact s.cell_storeCell_self kbsr _ hwf

theorem keyTaken_cell_ne (c : Byte) (rest : List Byte) (s : State) {a : Word} (h0 : a ≠ kbsr) (h1 : a ≠ kbdr) :
    (keyTaken c rest s).cell a = s.cell a := by
  rw [keyTaken, State.cell_setConin, State.cell_storeCell_ne _ _ _ _ h1, State.cell_storeCell_ne _ _ _ _ h0]

theorem keyTaken_wf (c : Byte) (rest : List Byte) {s : State} (hwf : Memory.wf s.mem = true) :
    Memory.wf (keyTaken c rest s).mem = true :=
  State.wf_storeCell _ kbdr _ (s.wf_storeCell kbsr _ hwf)

/-! ### The read of 0xFE00 (R42) -/

theorem memRead_kbsr_idle {s : State} (h : s.conin = []) : memRead kbsr s = (0, s.storeCell kbsr 0) := by
  rw [memRead_kbsr, pollKeyboard_idle h]

theorem memRead_kbsr_pending {s : State} {c : Byte} {rest : List Byte} (h : s.conin = c :: rest) :
    memRead kbsr s = (0x8000, keyTaken c rest s) := by
  rw [memRead_kbsr, pollKeyboard_pending h]
  rfl

/-! ### LDI through a plain pointer (R127) -/

/-- Off 0xFE00 the pointer read changes nothing, so LDI is a load from the cell's word. -/
theorem exec_ldi_plain (dr : Reg) (off : BitVec 9) {s : State} (h : s.pcRelative off ≠ kbsr) :
    exec (.ldi dr off) s = .next (loadInto dr (s.cell (s.pcRelative off)) s) := by
  simp only [exec, execLdi, memRead_plain s h]

/-- What a load leaves in its register and in the flags. -/
theorem loadInto_reg_self (dr : Reg) (ea : Word) (s : State) : (loadInto dr ea s).reg dr = (memRead ea s).1 := by
  simp [loadInto, writeDest_reg]

@[simp] theorem loadInto_cond (dr : Reg) (ea : Word) (s : State) : (loadInto dr ea s).cond = condOf (memRead ea s).1 :=
  writeDest_cond ..

@[simp] theorem loadInto_cell (dr : Reg) (ea : Word) (s : State) (a : Word) :
    (loadInto dr ea s).cell a = (memRead ea s).2.cell a := rfl

@[simp] theorem loadInto_conin (dr : Reg) (ea : Word) (s : State) : (loadInto dr ea s).conin = (memRead ea s).2.conin := rfl

/-! ### PUTS up to a given word (R149, R54) -/

/-- With the parameter on, a string word is read through the intercept. -/
theorem strRead_intercept {c : Config} (a : Word) (s : State) (h : c.trapStringIntercept = true) :
    strRead c a s = memRead a s := by
  by_cases ha : a = kbsr
  · rw [strRead, if_pos ha, if_pos h]
  · rw [strRead_straight c a s (.inr ha), memRead_plain s ha]

/-- The words `ws` stand from `a` on, none is 0x0000, and each is read straight. -/
def StraightWords (c : Config) (a : Word) (ws : List Word) (s : State) : Prop :=
  ∀ i w, ws[i]? = some w →
    s.cell (a + BitVec.ofNat 16 i) = w ∧ w ≠ 0 ∧ (c.trapStringIntercept = false ∨ a + BitVec.ofNat 16 i ≠ kbsr)

theorem add_ofNat_succ (a : Word) (n : Nat) : a + BitVec.ofNat 16 (n + 1) = a + 1 + BitVec.ofNat 16 n := by
  rw [Nat.add_comm, BitVec.ofNat_add, ← BitVec.add_assoc]
  rfl

theorem straightWords_cons {c : Config} {a w : Word} {ws : List Word} {s : State} (h : StraightWords c a (w :: ws) s) :
    strRead c a s = (w, s) ∧ w ≠ 0 ∧ StraightWords c (a + 1) ws s := by
  obtain ⟨hcell, hne, hstraight⟩ := h 0 w rfl
  rw [BitVec.add_zero] at hcell hstraight
  refine ⟨by rw [strRead_straight c a s hstraight, hcell], hne, fun i v hi => ?_⟩
  rw [← add_ofNat_succ]
  exact h (i + 1) v hi

theorem lowByte_eq_ofNat (w : Word) : lowByte w = BitVec.ofNat 8 w.toNat := by
  apply BitVec.eq_of_toNat_eq
  simp [lowByte]

/-- PUTS prints such words one by one and goes on after them. -/
theorem putsLoop_straightWords (c : Config) (n : Nat) (a : Word) (ws : List Word) (s : State) (h : StraightWords c a ws s) :
    putsLoop c (ws.length + n) a s = putsLoop c n (a + BitVec.ofNat 16 ws.length) (s.emit (putsEvents ws)) := by
  induction ws generalizing a s with
  | nil => simp [putsEvents, State.emit]
  | cons w ws ih =>
    obtain ⟨hread, hne, htail⟩ := straightWords_cons h
    have hfuel : (w :: ws).length + n = (ws.length + n) + 1 := by rw [List.length_cons]; omega
    have hout : (s.emit [.byte (lowByte w)]).emit (putsEvents ws) = s.emit (putsEvents (w :: ws)) := by
      simp [State.emit, putsEvents, lowByte_eq_ofNat]
    rw [hfuel, putsLoop_more c _ a s (by rwa [hread]), hread, ih (a + 1) (s.emit _) htail, hout, List.length_cons,
      add_ofNat_succ]

/-! ### The status words as instructions (R53) -/

theorem decode_status_idle : decode 0 = .br 0 0 := by decide

theorem decode_status_pending : decode 0x8000 = .rti 0 := by decide

theorem exec_nop (s : State) : exec (.br 0 0) s = .next s := by
  simp [exec, execBr, branchTaken]

theorem exec_rti_zero (s : State) : exec (.rti 0) s = .next (raiseIllegalOpcode (s.pc - 1) 0x8000 s) := rfl

theorem fetch_kbsr_idle {s : State} (hpc : s.pc = kbsr) (h : s.conin = []) :
    fetch s = (0, (s.storeCell kbsr 0).setPc 0xFE01) := by
  rw [fetch, hpc, memRead_kbsr_idle h]
  rfl

theorem fetch_kbsr_pending {s : State} {c : Byte} {rest : List Byte} (hpc : s.pc = kbsr) (h : s.conin = c :: rest) :
    fetch s = (0x8000, (keyTaken c rest s).setPc 0xFE01) := by
  rw [fetch, hpc, memRead_kbsr_pending h]
  rfl

/-! ### ST to the next address (R58, R64, R130) -/

/-- A word of R64 written out as opcode, register and 9-bit offset. -/
theorem append_opcode_reg_offset (o : BitVec 4) (r : BitVec 3) (off : BitVec 9) :
    (o ++ r ++ off : Word) = place 12 o ||| place 9 r ||| place 0 off := by
  apply BitVec.eq_of_getLsbD_eq
  intro i hi
  simp only [BitVec.getLsbD_append, BitVec.getLsbD_or, getLsbD_place]
  by_cases h9 : i < 9
  · simp [h9, hi, show ¬ 9 ≤ i by omega, show ¬ 12 ≤ i by omega]
  · by_cases h12 : i < 12
    · simp [h9, hi, show 9 ≤ i by omega, show ¬ 12 ≤ i by omega, show i - 9 < 3 by omega]
    · simp [h9, hi, show 9 ≤ i by omega, show 12 ≤ i by omega, show ¬ i - 9 < 3 by omega, show i - 9 - 3 = i - 12 by omega,
        BitVec.getLsbD_of_ge r (i - 9) (by omega)]

theorem decode_st (sr : Reg) (off : BitVec 9) : decode (0b0011#4 ++ sr.bits ++ off) = .st sr off := by
  have hop : Opcode.ofBits 0b0011#4 = .st := rfl
  rw [append_opcode_reg_offset]
  simp (disch := omega) [decode, fieldDR, slice_or, slice_place_self, slice_place_ne, hop]

/-- ST with offset 0, off the keyboard addresses, stores at the incremented `pc`. -/
theorem exec_st_next (sr : Reg) {s : State} (h0 : s.pc ≠ kbsr) (h1 : s.pc ≠ kbdr) :
    exec (.st sr 0) s = .next (s.storeCell s.pc (s.reg sr)) := by
  have hea : s.pcRelative (0 : BitVec 9) = s.pc := BitVec.add_zero s.pc
  rw [exec, execSt, hea, memWrite_plain _ _ _ h0 h1]

/-- In RUN, a word stored at `pc` is the one the step executes (R58). -/
theorem step_storeCell_pc {s : State} (v : Word) (hwf : Memory.wf s.mem = true) (hrun : s.run = .run)
    (hsus : s.suspended = none) (hpc : s.pc ≠ kbsr) :
    step (s.storeCell s.pc v) = exec (decode v) ((s.storeCell s.pc v).setPc (s.pc + 1)) := by
  rw [step_of_run_plain (s := s.storeCell s.pc v) hrun hsus hpc, State.pc_storeCell, State.cell_storeCell_self s s.pc v hwf]

/-! ### What can stop (R46, R174) -/

/-- A result that is a next state, or the refusal of a store to a keyboard address under `refuse`. -/
def NextOrDeviceRefusal (r : Result) : Prop :=
  (∃ t, r = .next t) ∨
    (∃ a, (a = kbsr ∨ a = kbdr) ∧ Config.machine.devWrite = .refuse ∧ r = .refused (.deviceWrite a))

theorem memWrite_nextOrDeviceRefusal (a v : Word) (s : State) : NextOrDeviceRefusal (memWrite Config.machine a v s) := by
  rcases memWrite_cases Config.machine a v s with h | ⟨ha, hrefuse, h⟩
  · exact .inl ⟨_, h⟩
  · exact .inr ⟨a, ha, hrefuse, h⟩

/-- Only the three stores reach `memWrite`; every other instruction answers a next state. -/
theorem exec_nextOrDeviceRefusal (i : Instr) (s : State) : NextOrDeviceRefusal (exec i s) := by
  cases i
  case st | sti | str => exact memWrite_nextOrDeviceRefusal ..
  all_goals exact .inl ⟨_, rfl⟩

/-! ### The obligations -/

/-- Settles O22: off 0xFE00 the plain read; at it the store of 0, or the character moved. -/
theorem readsAndTheKeyboardIntercept : Obligations.ReadsAndTheKeyboardIntercept := by
  intro s hwf
  refine ⟨fun a => memRead_plain s, fun hq => ?_, fun c rest hq => ?_⟩
  · rw [memRead_kbsr_idle hq]
    exact ⟨rfl, onlyCell_storeCell kbsr 0 hwf⟩
  · rw [memRead_kbsr_pending hq]
    exact ⟨rfl, keyTaken_cell_kbsr c rest hwf, keyTaken_cell_kbdr c rest hwf, rfl, fun a => keyTaken_cell_ne c rest s,
      fun _ _ => rfl, rfl, rfl, rfl, rfl, rfl, rfl⟩

/-- Settles O23: the second read polls the queue the first one left. -/
theorem statusReadTwice : Obligations.StatusReadTwice := by
  intro s hwf
  refine ⟨fun hq => ?_, fun c hq => ?_, fun c d rest hq => ?_⟩
  · rw [memRead_kbsr_idle hq, memRead_kbsr_idle (s := s.storeCell kbsr 0) hq]
    exact ⟨rfl, rfl⟩
  · rw [memRead_kbsr_pending hq, memRead_kbsr_idle (keyTaken_conin c [] s)]
    refine ⟨rfl, rfl, ?_⟩
    rw [State.cell_storeCell_ne _ _ _ _ (by decide)]
    exact keyTaken_cell_kbdr c [] hwf
  · rw [memRead_kbsr_pending hq, memRead_kbsr_pending (keyTaken_conin c (d :: rest) s)]
    exact ⟨rfl, rfl, keyTaken_cell_kbdr d rest (keyTaken_wf c _ hwf), rfl⟩

/-- Settles O24: wherever the write is not refused it is the plain store. -/
theorem writesStoreOrFollowDevWrite : Obligations.WritesStoreOrFollowDevWrite := by
  intro c a v s hwf
  refine ⟨fun h0 h1 => ?_, fun hkey hstore => ?_, fun hkey hrefuse => ?_⟩
  · exact ⟨_, memWrite_plain c v s h0 h1, onlyCell_storeCell a v hwf⟩
  · exact ⟨_, by rw [memWrite, if_pos hkey, hstore], onlyCell_storeCell a v hwf⟩
  · rw [memWrite, if_pos hkey, hrefuse]

/-- Settles O34: the pointer read is plain, so LDI loads from 0xFE00 itself. -/
theorem pollingThroughLdi : Obligations.PollingThroughLdi := by
  intro dr off s hwf hea hptr
  refine ⟨_, by rw [exec_ldi_plain dr off hea, hptr], fun hq => ?_, fun c rest hq => ?_⟩
  · rw [loadInto_reg_self, loadInto_cond, loadInto_conin, memRead_kbsr_idle hq]
    exact ⟨rfl, (condOf_zero_iff 0).2 rfl, hq⟩
  · rw [loadInto_reg_self, loadInto_cond, loadInto_cell, loadInto_conin, memRead_kbsr_pending hq]
    exact ⟨rfl, (condOf_neg_iff 0x8000).2 rfl, keyTaken_cell_kbdr c rest hwf, rfl⟩

/-- Settles O40: PUTS prints the straight words before 0xFE00, and the intercept answers 0x0000 there, which ends the string. -/
theorem stringWordsAtTheStatusAddress : Obligations.StringWordsAtTheStatusAddress := by
  intro c s
  refine ⟨fun a hoff => strRead_straight c a s (.inl hoff), fun a hon => strRead_intercept a s hon, ?_⟩
  intro ws hlen hon hq hwords hkbsr
  have hstraight : StraightWords c (s.reg .r0) ws s := fun i w hi =>
    let ⟨hcell, hne, hoff⟩ := hwords i w hi
    ⟨hcell, hne, .inr hoff⟩
  have hread : strRead c kbsr (s.emit (putsEvents ws)) = (0, (s.emit (putsEvents ws)).storeCell kbsr 0) :=
    (strRead_intercept kbsr _ hon).trans (memRead_kbsr_idle hq)
  obtain ⟨n, hn⟩ : ∃ n, memoryWords = ws.length + (n + 1) := ⟨65535 - ws.length, by rw [memoryWords]; omega⟩
  rw [putsRoutine, hn, putsLoop_straightWords c _ _ ws s hstraight, hkbsr, putsLoop_end c n kbsr _ (by rw [hread]), hread]
  exact ⟨rfl, rfl⟩

/-- Settles O49: the status word 0x0000 is a never-taken BR, and 0x8000 an RTI. -/
theorem fetchAtTheStatusAddress : Obligations.FetchAtTheStatusAddress := by
  intro s hwf hrun hsus hpc
  refine ⟨fun hq => ?_, fun c rest hq => ?_⟩
  · obtain ⟨hcell, hother, -⟩ := onlyCell_storeCell kbsr 0 hwf
    refine ⟨(s.storeCell kbsr 0).setPc 0xFE01, ?_, rfl, hrun, hcell, hother, fun _ _ => rfl, rfl, ⟨rfl, rfl⟩, rfl, rfl, rfl⟩
    rw [step_of_run hrun hsus, fetch_kbsr_idle hpc hq, decode_status_idle, exec_nop]
  · refine ⟨raiseIllegalOpcode 0xFE00 0x8000 ((keyTaken c rest s).setPc 0xFE01), ?_, rfl, rfl, rfl,
      keyTaken_cell_kbsr c rest hwf, keyTaken_cell_kbdr c rest hwf, rfl, fun a => keyTaken_cell_ne c rest s, fun _ _ => rfl,
      rfl, rfl, rfl⟩
    have haddr : ((keyTaken c rest s).setPc 0xFE01).pc - 1 = 0xFE00 := by rw [State.pc_setPc]; decide
    rw [step_of_run hrun hsus, fetch_kbsr_pending hpc hq, decode_status_pending, exec_rti_zero, haddr]

/-- Settles O50: after the ST, the cell at the new `pc` is the stored word, and the fetch there is plain. -/
theorem storedWordIsFetchedNext : Obligations.StoredWordIsFetchedNext := by
  intro s sr hwf hrun hsus hpc h0 h1 hword
  refine ⟨(s.setPc (s.pc + 1)).storeCell (s.pc + 1) (s.reg sr), ?_, rfl, ?_⟩
  · rw [step_of_run_plain hrun hsus hpc, hword, decode_st]
    exact exec_st_next sr (s := s.setPc (s.pc + 1)) h0 h1
  · have hnext : s.pc + 2 = s.pc + 1 + 1 := (BitVec.add_assoc s.pc 1 1).symm
    rw [hnext]
    exact step_storeCell_pc (s := s.setPc (s.pc + 1)) (s.reg sr) hwf hrun hsus h0

/-- Settles O53: a terminal state stands, an unfinished routine goes on, and otherwise the instruction decides. -/
theorem onlyKeyboardStoresStop : Obligations.OnlyKeyboardStoresStop := by
  intro s
  cases hrun : s.run with
  | halted | aborted => exact .inl ⟨s, by rw [step, hrun]⟩
  | run =>
    cases hsus : s.suspended with
    | some r => exact .inl ⟨resumeRoutine Config.machine r s, by simp only [step, hrun, hsus]⟩
    | none =>
      rw [step_of_run hrun hsus]
      exact exec_nextOrDeviceRefusal ..

end Sys2Proof.Machine
end

section
/-! PROOFS. The encoding family (spec 30_encoding.md): the encoder and the decoder as inverses (R64, R65), the rows of the opcode table
(R65), the unused bits (R68), the illegal words (R69) and the operand forms (R66, R125). The link between a word and its instruction is
said once, in `encode_decode`: re-encoding a decoded word resets the unused bits of its row and keeps every other bit. -/

namespace Sys2Proof.Machine

/-! ### Decoding an encoded instruction (R64) -/

/-- Each operand is read back from the field it was placed in. -/
theorem decode_encode (i : Instr) : decode (encode i) = i := by
  rw [decode, slice_opcode_encode, Opcode.ofBits_bits]
  cases i <;>
    simp (disch := omega) [Instr.opcode, encode, operandBits, fieldDR, fieldSR1, fieldSR2, slice_or,
      slice_place_self, slice_place_ne]

/-! ### The opcode of a decoded word (R65) -/

theorem Opcode.ofBits_eq_iff {b : BitVec 4} {o : Opcode} : Opcode.ofBits b = o ↔ b = o.bits :=
  ⟨fun h => by rw [← h, Opcode.bits_ofBits], fun h => by rw [h, Opcode.ofBits_bits]⟩

theorem opcode_decode (w : Word) : (decode w).opcode = Opcode.ofBits (slice 12 4 w) := by
  cases hop : Opcode.ofBits (slice 12 4 w)
  case add | and | jsr => simp only [decode, hop]; split <;> rfl
  all_goals simp only [decode, hop, Instr.opcode]

theorem decode_of_rti {w : Word} (h : slice 12 4 w = 0x8) : decode w = .rti (slice 0 12 w) := by
  have hop : Opcode.ofBits (slice 12 4 w) = .rti := Opcode.ofBits_eq_iff.2 h
  simp only [decode, hop]

theorem decode_of_res {w : Word} (h : slice 12 4 w = 0xD) : decode w = .res (slice 0 12 w) := by
  have hop : Opcode.ofBits (slice 12 4 w) = .res := Opcode.ofBits_eq_iff.2 h
  simp only [decode, hop]

/-! ### Unused bits, by row (R68) -/

/-- R68's rows with unused bits: mask, match, the unused bits and the value an assembler writes in them (G9). -/
def unusedRows : List (Word × Word × Word × Word) :=
  [(0xF020, 0x1000, 0x0018, 0), (0xF020, 0x5000, 0x0018, 0), (0xF000, 0x9000, 0x003F, 0x003F),
   (0xF000, 0xC000, 0x0E3F, 0), (0xF800, 0x4000, 0x063F, 0), (0xF000, 0xF000, 0x0F00, 0)]

/-- The unused bits of a row, which its match tells from the others. -/
def unusedBits (r : OpcodeRow) : Word :=
  if r.value = 0x1000 ∨ r.value = 0x5000 then 0x0018
  else if r.value = 0x9000 then 0x003F
  else if r.value = 0xC000 then 0x0E3F
  else if r.value = 0x4000 then 0x063F
  else if r.value = 0xF000 then 0x0F00
  else 0

/-- What the encoder writes in the unused bits of a row. -/
def unusedFill (r : OpcodeRow) : Word := if r.value = 0x9000 then 0x003F else 0

/-- A row as `unusedRows` writes it. -/
def unusedEntry (r : OpcodeRow) : Word × Word × Word × Word := (r.mask, r.value, unusedBits r, unusedFill r)

/-- R68's list is the part of the table that has unused bits. -/
theorem unusedRows_eq_filter : unusedRows = (opcodeTable.map unusedEntry).filter (fun e => e.2.2.1 ≠ 0) := by decide

theorem mem_unusedRows_iff (e : Word × Word × Word × Word) :
    e ∈ unusedRows ↔ ∃ r ∈ opcodeTable, unusedBits r ≠ 0 ∧ unusedEntry r = e := by
  rw [unusedRows_eq_filter, List.mem_filter, List.mem_map, decide_eq_true_iff]
  constructor
  · rintro ⟨⟨r, hr, rfl⟩, hbits⟩
    exact ⟨r, hr, hbits, rfl⟩
  · rintro ⟨r, hr, hbits, rfl⟩
    exact ⟨⟨r, hr, rfl⟩, hbits⟩

/-- Only unused bits are filled. -/
theorem unusedFill_eq_zero {r : OpcodeRow} (h : unusedBits r = 0) : unusedFill r = 0 := by
  refine if_neg fun hvalue => ?_
  simp [unusedBits, hvalue] at h

/-- No unused bit is one of the row's fixed bits. -/
theorem unused_and_mask : ∀ r ∈ opcodeTable, ~~~ unusedBits r &&& r.mask = r.mask ∧ unusedFill r &&& r.mask = 0 := by decide

/-! ### Encoding a decoded word -/

/-- A field put back at its own place is the word masked to that field. -/
theorem place_slice (lo n : Nat) (w : Word) : place lo (slice lo n w) = w &&& place lo (BitVec.allOnes n) := by
  apply BitVec.eq_of_getLsbD_eq
  intro i hi
  rw [getLsbD_place, getLsbD_slice, BitVec.getLsbD_and, getLsbD_place, BitVec.getLsbD_allOnes]
  by_cases hlo : lo ≤ i
  · simp [hi, hlo, Bool.and_comm]
  · simp [hlo]

theorem place_fieldDR (w : Word) : place 9 (fieldDR w).bits = w &&& place 9 (BitVec.allOnes 3) := by
  rw [fieldDR, Reg.bits_ofBits, place_slice]

theorem place_fieldSR1 (w : Word) : place 6 (fieldSR1 w).bits = w &&& place 6 (BitVec.allOnes 3) := by
  rw [fieldSR1, Reg.bits_ofBits, place_slice]

theorem place_fieldSR2 (w : Word) : place 0 (fieldSR2 w).bits = w &&& place 0 (BitVec.allOnes 3) := by
  rw [fieldSR2, Reg.bits_ofBits, place_slice]

/-- A mode bit that is set, as the encoder writes it. -/
theorem place_mode_set {lo : Nat} {w : Word} (h : slice lo 1 w = 1#1) : place lo 1#1 = w &&& place lo (BitVec.allOnes 1) := by
  rw [← place_slice, h]

theorem and_mode_clear {lo : Nat} {w : Word} (h : slice lo 1 w ≠ 1#1) : w &&& place lo (BitVec.allOnes 1) = 0 := by
  have hclear : slice lo 1 w = 0#1 := (BitVec.eq_zero_or_eq_one _).resolve_right h
  rw [← place_slice, hclear]
  simp [place]

/-- A mask may gain bits that the word has clear. -/
theorem and_eq_and_or_of_clear {w z : Word} (hz : w &&& z = 0) (m : Word) : w &&& m = w &&& (m ||| z) := by
  rw [BitVec.and_or_distrib_left, hz]
  exact BitVec.or_zero.symm

/-- Re-encoding a decoded word resets the unused bits of its row, and keeps every other bit: each field goes back to its place, a clear mode
bit is not written, and the fields and the unused bits make up the word. -/
theorem encode_decode (w : Word) :
    encode (decode w) = (w &&& ~~~ unusedBits (decode w).row) ||| unusedFill (decode w).row := by
  rw [encode, opcode_decode, Opcode.bits_ofBits, decode]
  cases Opcode.ofBits (slice 12 4 w)
  case add | and =>
    by_cases hmode : slice 5 1 w = 1#1
    · simp only [if_pos hmode, operandBits, place_fieldDR, place_fieldSR1, place_mode_set hmode, place_slice,
        ← BitVec.and_or_distrib_left]
      simp [unusedBits, unusedFill, Instr.row, place]
    · simp only [if_neg hmode, operandBits, place_fieldDR, place_fieldSR1, place_fieldSR2, place_slice,
        ← BitVec.and_or_distrib_left]
      rw [and_eq_and_or_of_clear (and_mode_clear hmode)]
      simp [unusedBits, unusedFill, Instr.row, place]
  case jsr =>
    by_cases hmode : slice 11 1 w = 1#1
    · simp only [if_pos hmode, operandBits, place_mode_set hmode, place_slice, ← BitVec.and_or_distrib_left]
      simp [unusedBits, unusedFill, Instr.row, place]
    · simp only [if_neg hmode, operandBits, place_fieldSR1, place_slice, ← BitVec.and_or_distrib_left]
      rw [and_eq_and_or_of_clear (and_mode_clear hmode)]
      simp [unusedBits, unusedFill, Instr.row, place]
  case not =>
    simp only [operandBits, place_fieldDR, place_fieldSR1, place_slice, ← BitVec.or_assoc, ← BitVec.and_or_distrib_left]
    simp [unusedBits, unusedFill, Instr.row, place]
  all_goals
    simp only [operandBits, place_fieldDR, place_fieldSR1, place_slice, ← BitVec.and_or_distrib_left]
    simp [unusedBits, unusedFill, Instr.row, place]

/-! ### The row of a decoded word (R65) -/

theorem covers_iff (r : OpcodeRow) (w : Word) : r.covers w = true ↔ w &&& r.mask = r.value := beq_iff_eq

theorem row_mem_opcodeTable (i : Instr) : i.row ∈ opcodeTable := by
  cases i <;> simp [opcodeTable, Instr.row]

open Laws.EncodeFitsRow in
theorem row_covers_encode (i : Instr) : i.row.covers (encode i) = true := by
  cases i
  exacts [addReg .., addImm .., andReg .., andImm .., not .., br .., jmp .., jsr .., jsrr .., ld .., ldi .., ldr .., lea ..,
    st .., sti .., str .., trap .., rti .., res ..]

/-- A word has the fixed bits of the row of its instruction: its encoding has them, and differs from it in unused bits only. -/
theorem row_covers_decode (w : Word) : (decode w).row.covers w = true := by
  obtain ⟨hbits, hfill⟩ := unused_and_mask _ (row_mem_opcodeTable (decode w))
  have henc := (covers_iff ..).1 (row_covers_encode (decode w))
  rw [encode_decode, Laws.EncodeFitsRow.or_and_mask, BitVec.and_assoc, hbits, hfill] at henc
  exact (covers_iff ..).2 (BitVec.or_zero.symm.trans henc)

/-- Two rows whose fixed bits agree wherever both fix a bit are one row. -/
theorem row_eq_of_agree : ∀ r ∈ opcodeTable, ∀ r' ∈ opcodeTable, r.value &&& r'.mask = r'.value &&& r.mask → r = r' := by decide

theorem row_eq_of_covers {r r' : OpcodeRow} {w : Word} (hr : r ∈ opcodeTable) (hr' : r' ∈ opcodeTable)
    (h : r.covers w = true) (h' : r'.covers w = true) : r = r' := by
  rw [covers_iff] at h h'
  exact row_eq_of_agree r hr r' hr' (by rw [← h, ← h', BitVec.and_assoc, BitVec.and_assoc, BitVec.and_comm r.mask])

/-- A word is of a row of the table exactly when its instruction is. -/
theorem covers_iff_eq_row_decode {r : OpcodeRow} (hr : r ∈ opcodeTable) (w : Word) :
    r.covers w = true ↔ r = (decode w).row :=
  ⟨fun h => row_eq_of_covers hr (row_mem_opcodeTable _) h (row_covers_decode w), fun h => h ▸ row_covers_decode w⟩

/-! ### Words that differ in unused bits -/

theorem xor_and_not (w u m : Word) : (w ^^^ (u &&& m)) &&& ~~~ m = w &&& ~~~ m := by
  ext i hi
  cases hm : m[i] <;> simp [hm]

/-- Changing unused bits changes neither the row nor, as the encoder resets them, the encoding. -/
theorem decode_xor_unused (w u : Word) : decode (w ^^^ (u &&& unusedBits (decode w).row)) = decode w := by
  generalize hr : (decode w).row = r
  generalize hw' : w ^^^ (u &&& unusedBits r) = w'
  have hmem : r ∈ opcodeTable := hr ▸ row_mem_opcodeTable (decode w)
  have hkeep : w' &&& ~~~ unusedBits r = w &&& ~~~ unusedBits r := hw' ▸ xor_and_not w u _
  have hfixed : w' &&& r.mask = w &&& r.mask := by
    rw [← (unused_and_mask r hmem).1, ← BitVec.and_assoc, hkeep, BitVec.and_assoc]
  have hcov : r.covers w' = true := by
    rw [covers_iff, hfixed]
    exact (covers_iff r w).1 (hr ▸ row_covers_decode w)
  have hrow : (decode w').row = r := ((covers_iff_eq_row_decode hmem w').1 hcov).symm
  calc decode w' = decode (encode (decode w')) := (decode_encode _).symm
    _ = decode (encode (decode w)) := by rw [encode_decode, encode_decode, hrow, hr, hkeep]
    _ = decode w := decode_encode _

/-! ### Illegal words (R69) -/

theorem legal_eq_false_iff (i : Instr) : i.legal = false ↔ i.opcode = .rti ∨ i.opcode = .res := by
  cases i <;> simp [Instr.legal, Instr.opcode]

theorem legal_decode_eq_false_iff (w : Word) :
    (decode w).legal = false ↔ slice 12 4 w = 0x8 ∨ slice 12 4 w = 0xD := by
  rw [legal_eq_false_iff, opcode_decode, Opcode.ofBits_eq_iff, Opcode.ofBits_eq_iff]
  rfl

theorem toNat_slice_opcode (w : Word) : (slice 12 4 w).toNat = w.toNat / 4096 := by
  rw [slice, BitVec.extractLsb'_toNat, Nat.shiftRight_eq_div_pow]
  omega

/-- The opcode field over the low 12 bits is the word. -/
theorem illegalWord_slices (w : Word) : illegalWord (slice 12 4 w) (slice 0 12 w) = w :=
  (BitVec.extractLsb'_append_extractLsb'_eq_extractLsb' rfl).trans BitVec.extractLsb'_eq_self

theorem exec_decode_illegal {w : Word} (h : (decode w).legal = false) (s : State) :
    exec (decode w) s = .next (raiseIllegalOpcode (s.pc - 1) w s) := by
  have hword := illegalWord_slices w
  rcases (legal_decode_eq_false_iff w).1 h with hop | hop
  · rw [hop] at hword
    rw [decode_of_rti hop, exec, execRti, hword, State.fetchAddress]
  · rw [hop] at hword
    rw [decode_of_res hop, exec, execRes, hword, State.fetchAddress]

/-! ### Signed offsets (R66, R125) -/

theorem sext_eq_ofInt {n : Nat} (v : BitVec n) : sext v = BitVec.ofInt 16 v.toInt := rfl

/-- Adding a sign-extended offset is the exact sum modulo 2^16. -/
theorem toNat_add_sext {n : Nat} (a : Word) (v : BitVec n) :
    ((a + sext v).toNat : Int) = (a.toNat + v.toInt) % 65536 := by
  rw [sext_eq_ofInt, BitVec.toNat_add, BitVec.toNat_ofInt]
  omega

/-- The range of a field of `n + 1` bits in two's complement. -/
theorem toInt_range {n : Nat} (v : BitVec (n + 1)) : -2 ^ n ≤ v.toInt ∧ v.toInt ≤ 2 ^ n - 1 :=
  ⟨v.le_toInt, Int.le_sub_one_of_lt v.toInt_lt⟩

/-! ### The obligations -/

/-- Settles O2: every field is read where the encoder placed it. -/
theorem decodeOfEncodeIsTheInstruction : Obligations.DecodeOfEncodeIsTheInstruction := decode_encode

/-- Settles O3: the word is of a row exactly when that row is its instruction's, and the table lists each row once. -/
theorem everyWordIsOfExactlyOneRow : Obligations.EveryWordIsOfExactlyOneRow := by
  refine ⟨rfl, fun w => ?_⟩
  have hnodup : opcodeTable.Nodup := by decide
  have hrows : ∀ r ∈ opcodeTable, r.covers w = (r == (decode w).row) := fun r hr => by
    rw [Bool.eq_iff_iff, beq_iff_eq]
    exact covers_iff_eq_row_decode hr w
  rw [List.filter_congr hrows, List.filter_beq, List.count_eq_one_of_mem hnodup (row_mem_opcodeTable _), List.replicate_one]

/-- Settles O4: the row of the word tells which bits are unused, and outside the six rows there are none. -/
theorem unusedBitsAreIgnored : Obligations.UnusedBitsAreIgnored := by
  refine ⟨fun e he w u hw => ?_, fun w h1 h2 h3 h4 h5 h6 => ?_⟩
  · obtain ⟨r, hr, -, rfl⟩ := (mem_unusedRows_iff e).1 he
    obtain rfl := (covers_iff_eq_row_decode hr w).1 ((covers_iff r w).2 hw)
    exact ⟨decode_xor_unused w u, encode_decode w⟩
  · have hnone : ∀ e ∈ unusedRows, w &&& e.1 ≠ e.2.1 := by
      simpa [unusedRows] using ⟨h1, h2, h3, h4, h5, h6⟩
    have hbits : unusedBits (decode w).row = 0 := by
      by_contra hne
      exact hnone _ ((mem_unusedRows_iff _).2 ⟨_, row_mem_opcodeTable _, hne, rfl⟩)
        ((covers_iff ..).1 (row_covers_decode w))
    rw [encode_decode, unusedFill_eq_zero hbits, hbits]
    exact BitVec.or_zero.trans BitVec.and_allOnes

/-- Settles O5: the opcode field is 8 or 13, and the abort records it over the low 12 bits. -/
theorem illegalWordsAreRtiAndRes : Obligations.IllegalWordsAreRtiAndRes := by
  intro w
  refine ⟨?_, exec_decode_illegal⟩
  have h8 : (0x8 : BitVec 4).toNat = 8 := rfl
  have hD : (0xD : BitVec 4).toNat = 13 := rfl
  rw [legal_decode_eq_false_iff, ← BitVec.toNat_inj, ← BitVec.toNat_inj, toNat_slice_opcode, h8, hD]
  omega

/-- Settles O7: each address is a word plus a sign-extended field. -/
theorem operandFormsAndAddresses : Obligations.OperandFormsAndAddresses :=
  ⟨fun imm => ⟨sext_eq_ofInt imm, toInt_range imm⟩, fun s base off => ⟨toNat_add_sext (s.reg base) off, toInt_range off⟩,
    fun s off => ⟨toNat_add_sext s.pc off, toInt_range off⟩, fun s off => ⟨toNat_add_sext s.pc off, toInt_range off⟩⟩

/-- Settles O1: the thirteen fixed words are evaluated. -/
theorem writtenOutWordsDecode : Obligations.WrittenOutWordsDecode := by
  unfold Obligations.WrittenOutWordsDecode
  decide

end Sys2Proof.Machine
end

section
/-! PROOFS. The ALU family (spec 40_alu.md): SetFlags (R90), the instructions that change the flags (R91), ADD, AND and NOT
(R92 to R97), and the agreement of the two operand modes (R98). What an ALU instruction changes is said once, in `onlyDest_writeDest`. -/

namespace Sys2Proof.Machine

open Sys2Proof.Claims

/-! ### The flag of a word (R90) -/

/-- Bit 15 is the sign of a word. -/
theorem sign_bit_iff (v : Word) : v[15] = true ↔ 0x8000 ≤ v.toNat := by
  have hmsb : v[15] = v.msb := rfl
  rw [hmsb, BitVec.msb_eq_decide, decide_eq_true_iff]

/-- R90's bit tests and R90's ranges name the same flag. -/
theorem flagOf_condOf (v : Word) : FlagOf v (condOf v) := by
  have hzero : v = 0 ↔ v.toNat = 0 := BitVec.toNat_inj.symm
  refine ⟨(condOf_neg_iff v).trans (sign_bit_iff v), (condOf_zero_iff v).trans hzero, (condOf_pos_iff v).trans ?_⟩
  rw [← Bool.not_eq_true, sign_bit_iff, Ne, hzero]
  omega

/-- A word has one flag. -/
theorem eq_condOf_of_flagOf {v : Word} {f : Cond} (h : FlagOf v f) : f = condOf v := by
  obtain ⟨hneg, hzero, hpos⟩ := h
  obtain ⟨hneg', hzero', hpos'⟩ := flagOf_condOf v
  cases f with
  | neg => exact (hneg'.2 (hneg.1 rfl)).symm
  | zero => exact (hzero'.2 (hzero.1 rfl)).symm
  | pos => exact (hpos'.2 (hpos.1 rfl)).symm

/-! ### A destination write (R91) -/

@[simp] theorem writeDest_reg_self (r : Reg) (v : Word) (s : State) : (writeDest r v s).reg r = v := by
  simp [writeDest_reg]

/-- A destination write changes its register and the flags, and nothing else. -/
theorem onlyDest_writeDest (dr : Reg) (v : Word) (s : State) : OnlyDest dr v s (writeDest dr v s) := by
  refine ⟨writeDest_reg_self .., ?_, fun r hr => ?_, rfl, fun _ => rfl, ⟨rfl, rfl⟩, rfl, rfl, rfl⟩
  · rw [writeDest_cond]
    exact flagOf_condOf v
  · rw [writeDest_reg, if_neg (List.ne_of_not_mem_cons hr)]

/-- A destination write leaves the flag of the register it wrote. -/
theorem flagOf_writeDest (r : Reg) (v : Word) (s : State) : FlagOf ((writeDest r v s).reg r) (writeDest r v s).cond := by
  rw [writeDest_reg_self, writeDest_cond]
  exact flagOf_condOf v

/-! ### Who changes the flags (R91) -/

theorem memRead_cond (a : Word) (s : State) : (memRead a s).2.cond = s.cond := by
  obtain ⟨-, -, hcond, -⟩ := memRead_frame a s
  exact hcond

/-- Every routine but GETC and IN leaves the flags as they were. -/
theorem trapUnit_cond (c : Config) {v : BitVec 8} (s : State) (hgetc : v ≠ 0x20) (hin : v ≠ 0x23) :
    (trapUnit c v s).cond = s.cond := by
  rcases trapUnit_cases c v s with ⟨hv, -⟩ | ⟨-, h⟩ | ⟨-, h⟩ | ⟨hv, -⟩ | ⟨-, h⟩ | ⟨-, h⟩ | ⟨-, h⟩
  · exact absurd hv hgetc
  · exact h ▸ rfl
  · obtain ⟨-, -, hcond, -⟩ := putsLoop_frame c memoryWords (s.reg .r0) s
    exact h ▸ hcond
  · exact absurd hv hin
  · obtain ⟨-, -, hcond, -⟩ := putspLoop_frame c memoryWords (s.reg .r0) s
    exact h ▸ hcond
  · exact h ▸ rfl
  · rw [h]

/-- With a character pending, GETC ends in a write of R0, and so does IN. -/
theorem getcRoutine_eq_writeDest {s : State} (hq : s.conin ≠ []) : ∃ v u, getcRoutine s = writeDest .r0 v u := by
  obtain ⟨b, rest, h⟩ := List.exists_cons_of_ne_nil hq
  exact ⟨_, _, getcRoutine_takes h⟩

theorem inRoutine_eq_writeDest (c : Config) {s : State} (hq : s.conin ≠ []) : ∃ v u, inRoutine c s = writeDest .r0 v u := by
  obtain ⟨b, rest, h⟩ := List.exists_cons_of_ne_nil hq
  exact ⟨_, _, inRead_takes (s := s.emit _) h⟩

/-- On an empty queue GETC and IN wait, with the flags as they were. -/
theorem getcRoutine_cond_of_empty {s : State} (hq : s.conin = []) : (getcRoutine s).cond = s.cond := by
  rw [getcRoutine_waits hq]
  rfl

theorem inRoutine_cond_of_empty (c : Config) {s : State} (hq : s.conin = []) : (inRoutine c s).cond = s.cond := by
  rw [inRoutine, inRead_waits (s := s.emit _) hq]
  rfl

/-- Off R91's list an instruction leaves the flags as they were. -/
theorem exec_cond_of_flagDest_none {i : Instr} {s t : State} (h : exec i s = .next t) (hi : flagDest i = none) :
    t.cond = s.cond := by
  cases i
  case addReg | addImm | andReg | andImm | not | ld | ldi | ldr | lea => cases hi
  case jmp | jsr | jsrr | rti | res =>
    cases h
    rfl
  case br nzp off =>
    cases h
    split <;> rfl
  case st | str =>
    obtain rfl := memWrite_eq_next h
    rfl
  case sti sr off =>
    obtain rfl := memWrite_eq_next h
    exact memRead_cond ..
  case trap v =>
    cases h
    have hv : ¬ (v = 0x20 ∨ v = 0x23) := by simpa [flagDest] using hi
    obtain ⟨hgetc, hin⟩ := not_or.1 hv
    exact trapUnit_cond _ s.link hgetc hin

/-- On R91's list an instruction ends in a write of its destination register, or is a GETC or IN that waits. -/
theorem exec_eq_writeDest_or_waits {i : Instr} {s t : State} {r : Reg} (h : exec i s = .next t) (hi : flagDest i = some r) :
    (∃ v u, t = writeDest r v u) ∨ ((i = .trap 0x20 ∨ i = .trap 0x23) ∧ s.conin = [] ∧ t.cond = s.cond) := by
  cases i
  case br | jmp | jsr | jsrr | st | sti | str | rti | res => cases hi
  case addReg | addImm | andReg | andImm | not | ld | ldi | ldr | lea =>
    cases h
    cases hi
    exact .inl ⟨_, _, rfl⟩
  case trap v =>
    cases h
    obtain ⟨hv, rfl⟩ : (v = 0x20 ∨ v = 0x23) ∧ .r0 = r := by simpa [flagDest] using hi
    by_cases hq : s.conin = []
    · refine .inr ⟨by simpa using hv, hq, ?_⟩
      rcases hv with rfl | rfl
      · exact getcRoutine_cond_of_empty (s := s.link) hq
      · exact inRoutine_cond_of_empty _ (s := s.link) hq
    · refine .inl ?_
      rcases hv with rfl | rfl
      · exact getcRoutine_eq_writeDest (s := s.link) hq
      · exact inRoutine_eq_writeDest _ (s := s.link) hq

/-! ### The words of ADD, AND and NOT (R64) -/

/-- Adjoining fields, placed as one, are each placed. -/
theorem place_append {p q : Nat} (lo : Nat) (a : BitVec p) (b : BitVec q) :
    place lo (a ++ b) = place (lo + q) a ||| place lo b := by
  apply BitVec.eq_of_getLsbD_eq
  intro i hi
  rw [BitVec.getLsbD_or, getLsbD_place, getLsbD_place, getLsbD_place, BitVec.getLsbD_append]
  by_cases hhigh : lo + q ≤ i
  · have hb : b.getLsbD (i - lo) = false := BitVec.getLsbD_of_ge b _ (by omega)
    simp [hhigh, hb, Nat.sub_sub, show lo ≤ i by omega, show ¬ i - lo < q by omega]
  · by_cases hlo : lo ≤ i
    · simp [hhigh, show i - lo < q by omega]
    · simp [hhigh, hlo]

/-- A word of R64 written out as opcode, DR, SR1, mode bit, unused bits and SR2. -/
theorem append_register_form (o : BitVec 4) (dr sr1 : BitVec 3) (m : BitVec 1) (x : BitVec 2) (sr2 : BitVec 3) :
    (o ++ dr ++ sr1 ++ m ++ x ++ sr2 : Word) =
      place 12 o ||| place 9 dr ||| place 6 sr1 ||| place 5 m ||| place 3 x ||| place 0 sr2 :=
  (append_eq_place rfl _ sr2).trans (by simp only [place_append])

/-- A word of R64 written out as opcode, DR, SR1, mode bit and immediate. -/
theorem append_immediate_form (o : BitVec 4) (dr sr1 : BitVec 3) (m : BitVec 1) (imm : BitVec 5) :
    (o ++ dr ++ sr1 ++ m ++ imm : Word) = place 12 o ||| place 9 dr ||| place 6 sr1 ||| place 5 m ||| place 0 imm :=
  (append_eq_place rfl _ imm).trans (by simp only [place_append])

/-- A word of R64 written out as opcode, DR, SR1 and six unused bits. -/
theorem append_two_register_form (o : BitVec 4) (dr sr1 : BitVec 3) (x : BitVec 6) :
    (o ++ dr ++ sr1 ++ x : Word) = place 12 o ||| place 9 dr ||| place 6 sr1 ||| place 0 x :=
  (append_eq_place rfl _ x).trans (by simp only [place_append])

theorem decode_addReg (dr sr1 sr2 : Reg) (x : BitVec 2) :
    decode (0b0001#4 ++ dr.bits ++ sr1.bits ++ 0#1 ++ x ++ sr2.bits) = .addReg dr sr1 sr2 := by
  have hop : Opcode.ofBits 0b0001#4 = .add := rfl
  rw [append_register_form]
  simp (disch := omega) [decode, fieldDR, fieldSR1, fieldSR2, slice_or, slice_place_self, slice_place_ne, hop]

theorem decode_addImm (dr sr1 : Reg) (imm : BitVec 5) :
    decode (0b0001#4 ++ dr.bits ++ sr1.bits ++ 1#1 ++ imm) = .addImm dr sr1 imm := by
  have hop : Opcode.ofBits 0b0001#4 = .add := rfl
  rw [append_immediate_form]
  simp (disch := omega) [decode, fieldDR, fieldSR1, slice_or, slice_place_self, slice_place_ne, hop]

theorem decode_andReg (dr sr1 sr2 : Reg) (x : BitVec 2) :
    decode (0b0101#4 ++ dr.bits ++ sr1.bits ++ 0#1 ++ x ++ sr2.bits) = .andReg dr sr1 sr2 := by
  have hop : Opcode.ofBits 0b0101#4 = .and := rfl
  rw [append_register_form]
  simp (disch := omega) [decode, fieldDR, fieldSR1, fieldSR2, slice_or, slice_place_self, slice_place_ne, hop]

theorem decode_andImm (dr sr1 : Reg) (imm : BitVec 5) :
    decode (0b0101#4 ++ dr.bits ++ sr1.bits ++ 1#1 ++ imm) = .andImm dr sr1 imm := by
  have hop : Opcode.ofBits 0b0101#4 = .and := rfl
  rw [append_immediate_form]
  simp (disch := omega) [decode, fieldDR, fieldSR1, slice_or, slice_place_self, slice_place_ne, hop]

theorem decode_not (dr sr1 : Reg) (x : BitVec 6) :
    decode (0b1001#4 ++ dr.bits ++ sr1.bits ++ x) = .not dr sr1 := by
  have hop : Opcode.ofBits 0b1001#4 = .not := rfl
  rw [append_two_register_form]
  simp (disch := omega) [decode, fieldDR, fieldSR1, slice_or, slice_place_self, slice_place_ne, hop]

/-! ### What ADD, AND and NOT answer (R92 to R97) -/

theorem exec_addReg (dr sr1 sr2 : Reg) (s : State) :
    exec (.addReg dr sr1 sr2) s = .next (writeDest dr (s.reg sr1 + s.reg sr2) s) := rfl

theorem exec_addImm (dr sr1 : Reg) (imm : BitVec 5) (s : State) :
    exec (.addImm dr sr1 imm) s = .next (writeDest dr (s.reg sr1 + sext imm) s) := rfl

theorem exec_andReg (dr sr1 sr2 : Reg) (s : State) :
    exec (.andReg dr sr1 sr2) s = .next (writeDest dr (s.reg sr1 &&& s.reg sr2) s) := rfl

theorem exec_andImm (dr sr1 : Reg) (imm : BitVec 5) (s : State) :
    exec (.andImm dr sr1 imm) s = .next (writeDest dr (s.reg sr1 &&& sext imm) s) := rfl

theorem exec_not (dr sr1 : Reg) (s : State) : exec (.not dr sr1) s = .next (writeDest dr (~~~ s.reg sr1) s) := rfl

/-- Adding a sign-extended field is adding its two's-complement value. -/
theorem add_sext_eq_ofInt {n : Nat} (a : Word) (v : BitVec n) : a + sext v = BitVec.ofInt 16 (a.toNat + v.toInt) := by
  rw [BitVec.ofInt_add, BitVec.ofInt_natCast, BitVec.ofNat_toNat, BitVec.setWidth_eq, sext_eq_ofInt]

/-- The bits of a sign-extended immediate: its own, then its top bit. -/
theorem getLsbD_sext_imm5 (imm : BitVec 5) {i : Nat} (hi : i < 16) :
    (sext imm).getLsbD i = if i < 5 then imm.getLsbD i else imm.getLsbD 4 := by
  rw [BitVec.getLsbD_eq_getElem hi, getElem_sext imm hi, BitVec.msb_eq_getLsbD_last]

/-- The complement is the distance to 0xFFFF. -/
theorem not_eq_ofNat_sub (v : Word) : ~~~ v = BitVec.ofNat 16 (0xFFFF - v.toNat) := by
  apply BitVec.eq_of_toNat_eq
  rw [BitVec.toNat_not, BitVec.toNat_ofNat]
  omega

/-- A word with the value of a field is its sign extension. -/
theorem eq_sext_of_toInt_eq {n : Nat} {a : Word} {v : BitVec n} (h : a.toInt = v.toInt) : a = sext v := by
  rw [sext_eq_ofInt, ← h, BitVec.ofInt_toInt]

/-! ### The obligations -/

/-- Settles O9: R90's bit tests name exactly one flag, and only `cond` is written. -/
theorem setFlagsMatchesTheRegister : Obligations.SetFlagsMatchesTheRegister := by
  intro i s
  exact ⟨flagOf_condOf (s.reg i), ⟨_, flagOf_condOf (s.reg i), fun _ => eq_condOf_of_flagOf⟩, rfl⟩

/-- Settles O10: a listed instruction ends in a destination write or waits, and no other touches `cond`. -/
theorem onlyTheListedInstructionsChangeFlags : Obligations.OnlyTheListedInstructionsChangeFlags := by
  intro i s t h
  refine ⟨exec_cond_of_flagDest_none h, fun r hr => ?_⟩
  rcases exec_eq_writeDest_or_waits h hr with ⟨v, u, rfl⟩ | hwaits
  · exact .inl (flagOf_writeDest r v u)
  · exact .inr hwaits

/-- Settles O11: the sum of two words is the sum of their values modulo 2^16. -/
theorem addRegisterWritesTheWrappedSum : Obligations.AddRegisterWritesTheWrappedSum := by
  intro dr sr1 sr2 x
  refine ⟨decode_addReg dr sr1 sr2 x, fun s => ⟨_, exec_addReg dr sr1 sr2 s, ?_⟩⟩
  rw [← BitVec.add_def]
  exact onlyDest_writeDest ..

/-- Settles O12: adding the sign-extended immediate is adding its value. -/
theorem addImmediateWritesTheWrappedSum : Obligations.AddImmediateWritesTheWrappedSum := by
  intro dr sr1 imm
  refine ⟨decode_addImm dr sr1 imm, fun s => ⟨_, exec_addImm dr sr1 imm s, ?_⟩⟩
  rw [← add_sext_eq_ofInt]
  exact onlyDest_writeDest ..

/-- Settles O13: the word written is the AND of the sources, read bit by bit. -/
theorem andRegisterWritesTheConjunction : Obligations.AndRegisterWritesTheConjunction := by
  intro dr sr1 sr2 x
  exact ⟨decode_andReg dr sr1 sr2 x, fun s =>
    ⟨_, _, exec_andReg dr sr1 sr2 s, onlyDest_writeDest .., fun _ => BitVec.getLsbD_and⟩⟩

/-- Settles O14: the same with the sign-extended immediate, whose bits from 5 on are its top bit. -/
theorem andImmediateWritesTheConjunction : Obligations.AndImmediateWritesTheConjunction := by
  intro dr sr1 imm
  refine ⟨decode_andImm dr sr1 imm, fun s => ⟨_, _, exec_andImm dr sr1 imm s, onlyDest_writeDest .., fun i hi => ?_⟩⟩
  rw [BitVec.getLsbD_and, getLsbD_sext_imm5 imm hi]

/-- Settles O15: the complement is 0xFFFF minus the source. -/
theorem notWritesTheComplement : Obligations.NotWritesTheComplement := by
  intro dr sr1 x
  refine ⟨decode_not dr sr1 x, fun s => ⟨_, exec_not dr sr1 s, ?_⟩⟩
  rw [← not_eq_ofNat_sub]
  exact onlyDest_writeDest ..

/-- Settles O16: equal values make the register operand the sign-extended immediate itself. -/
theorem modesAgreeOnEqualOperands : Obligations.ModesAgreeOnEqualOperands := by
  intro dr sr1 sr2 k s h
  have hop : s.reg sr2 = sext k := eq_sext_of_toInt_eq h
  exact ⟨by rw [exec_addReg, exec_addImm, hop], by rw [exec_andReg, exec_andImm, hop]⟩

end Sys2Proof.Machine
end

section
/-! PROOFS. The control family (spec 41_control.md): BR, JMP, JSR and JSRR (R110 to R114), and the return from a call (R115). What a jump
and a call change is said once, in `onlyPc_setPc` and `onlyPcAndLink_setPc_link`. -/

namespace Sys2Proof.Machine

open Sys2Proof.Claims

/-! ### The link (R22) and the address of the instruction (R24) -/

theorem State.reg_link (r : Reg) (s : State) : s.link.reg r = if r = .r7 then s.pc else s.reg r :=
  State.reg_setReg s .r7 r s.pc

@[simp] theorem State.reg_link_r7 (s : State) : s.link.reg .r7 = s.pc := State.reg_setReg_self s .r7 s.pc

theorem State.fetchAddress_add_one (s : State) : s.fetchAddress + 1 = s.pc := BitVec.sub_add_cancel s.pc 1

/-! ### A write of `pc`, alone and after the link -/

theorem onlyPc_setPc (target : Word) (s : State) : OnlyPc target s (s.setPc target) :=
  ⟨rfl, fun _ _ => rfl, rfl, fun _ => rfl, ⟨rfl, rfl⟩, rfl, rfl, rfl⟩

theorem onlyPcAndLink_setPc_link (target : Word) (s : State) : OnlyPcAndLink target s (s.link.setPc target) := by
  refine ⟨rfl, s.reg_link_r7, fun r hr => ?_, rfl, fun _ => rfl, ⟨rfl, rfl⟩, rfl, rfl, rfl⟩
  rw [State.reg_setPc, State.reg_link, if_neg (List.ne_of_not_mem_cons hr)]

/-- The PC-relative address is R66's sum, modulo 2^16. -/
theorem State.pcRelative_eq_ofInt {n : Nat} (s : State) (off : BitVec n) :
    s.pcRelative off = BitVec.ofInt 16 (s.pc.toNat + off.toInt) :=
  add_sext_eq_ofInt s.pc off

/-! ### The branch mask (R67) -/

/-- The bits of a mask written out as n, z, p. -/
theorem getElem_mask_iff (n z p : BitVec 1) :
    ((n ++ z ++ p)[2] = true ↔ n = 1) ∧ ((n ++ z ++ p)[1] = true ↔ z = 1) ∧ ((n ++ z ++ p)[0] = true ↔ p = 1) := by
  revert n z p
  decide

theorem branchTaken_mask_iff (n z p : BitVec 1) (f : Cond) :
    branchTaken (n ++ z ++ p) f = true ↔ (n = 1 ∧ f = .neg) ∨ (z = 1 ∧ f = .zero) ∨ (p = 1 ∧ f = .pos) := by
  obtain ⟨hn, hz, hp⟩ := getElem_mask_iff n z p
  rw [branchTaken_iff, hn, hz, hp]

/-! ### The words of BR, JMP, JSR and JSRR (R64) -/

/-- A word of R64 written out as opcode, the three mask bits and the 9-bit offset. -/
theorem append_branch_form (o : BitVec 4) (n z p : BitVec 1) (off : BitVec 9) :
    (o ++ n ++ z ++ p ++ off : Word) = place 12 o ||| place 9 (n ++ z ++ p) ||| place 0 off :=
  (append_eq_place rfl _ off).trans (by simp only [place_append, BitVec.or_assoc])

/-- A word of R64 written out as opcode, mode bit and 11-bit offset. -/
theorem append_call_form (o : BitVec 4) (m : BitVec 1) (off : BitVec 11) :
    (o ++ m ++ off : Word) = place 12 o ||| place 11 m ||| place 0 off :=
  (append_eq_place rfl _ off).trans (by simp only [place_append])

/-- A word of R64 written out as opcode, mode bit, two unused bits, BaseR and six unused bits. -/
theorem append_call_register_form (o : BitVec 4) (m : BitVec 1) (hi : BitVec 2) (base : BitVec 3) (lo : BitVec 6) :
    (o ++ m ++ hi ++ base ++ lo : Word) = place 12 o ||| place 11 m ||| place 9 hi ||| place 6 base ||| place 0 lo :=
  (append_eq_place rfl _ lo).trans (by simp only [place_append])

theorem decode_br (n z p : BitVec 1) (off : BitVec 9) :
    decode (0b0000#4 ++ n ++ z ++ p ++ off) = .br (n ++ z ++ p) off := by
  have hop : Opcode.ofBits 0b0000#4 = .br := rfl
  rw [append_branch_form]
  simp (disch := omega) [decode, slice_or, slice_place_self, slice_place_ne, hop]

theorem decode_jmp (base : Reg) (hi : BitVec 3) (lo : BitVec 6) :
    decode (0b1100#4 ++ hi ++ base.bits ++ lo) = .jmp base := by
  have hop : Opcode.ofBits 0b1100#4 = .jmp := rfl
  rw [append_two_register_form]
  simp (disch := omega) [decode, fieldSR1, slice_or, slice_place_self, slice_place_ne, hop]

theorem decode_jsr (off : BitVec 11) : decode (0b0100#4 ++ 1#1 ++ off) = .jsr off := by
  have hop : Opcode.ofBits 0b0100#4 = .jsr := rfl
  rw [append_call_form]
  simp (disch := omega) [decode, slice_or, slice_place_self, slice_place_ne, hop]

theorem decode_jsrr (base : Reg) (hi : BitVec 2) (lo : BitVec 6) :
    decode (0b0100#4 ++ 0#1 ++ hi ++ base.bits ++ lo) = .jsrr base := by
  have hop : Opcode.ofBits 0b0100#4 = .jsr := rfl
  rw [append_call_register_form]
  simp (disch := omega) [decode, fieldSR1, slice_or, slice_place_self, slice_place_ne, hop]

/-! ### What BR, JMP, JSR and JSRR answer (R110 to R114) -/

/-- BR writes `pc` either way; where it falls through, with the value it had. -/
theorem exec_br (nzp : BitVec 3) (off : BitVec 9) (s : State) :
    exec (.br nzp off) s = .next (s.setPc (if branchTaken nzp s.cond then s.pcRelative off else s.pc)) := by
  rw [exec, execBr]
  split <;> rfl

theorem exec_jmp (base : Reg) (s : State) : exec (.jmp base) s = .next (s.setPc (s.reg base)) := rfl

theorem exec_jsr (off : BitVec 11) (s : State) : exec (.jsr off) s = .next (s.link.setPc (s.pcRelative off)) := rfl

theorem exec_jsrr (base : Reg) (s : State) :
    exec (.jsrr base) s = .next (s.link.setPc (if base = .r7 then s.pc else s.reg base)) := by
  rw [← State.reg_link]
  rfl

/-! ### The obligations -/

/-- Settles O17: the branch test reads the three mask bits, and only `pc` is written. -/
theorem branchTakenExactlyWhenTheMaskNamesTheFlag : Obligations.BranchTakenExactlyWhenTheMaskNamesTheFlag := by
  intro n z p off
  refine ⟨decode_br n z p off, fun s => ⟨_, exec_br (n ++ z ++ p) off s, ?_⟩⟩
  simp only [branchTaken_mask_iff, State.pcRelative_eq_ofInt]
  exact onlyPc_setPc ..

/-- Settles O18: the base register is moved to `pc`; RET is one of R72's words. -/
theorem jumpGoesToTheBaseRegister : Obligations.JumpGoesToTheBaseRegister := by
  obtain ⟨hret, -⟩ := writtenOutWordsDecode
  exact ⟨hret, fun base hi lo => ⟨decode_jmp base hi lo, fun s => ⟨_, exec_jmp base s, onlyPc_setPc ..⟩⟩⟩

/-- Settles O19: the link, then the PC-relative target. -/
theorem callLinksThenGoesPcRelative : Obligations.CallLinksThenGoesPcRelative := by
  intro off
  refine ⟨decode_jsr off, fun s => ⟨_, exec_jsr off s, ?_⟩⟩
  rw [State.pcRelative_eq_ofInt]
  exact onlyPcAndLink_setPc_link ..

/-- Settles O20: the base is read after the link, so R7 reads as the link. -/
theorem callThroughRegisterLinksFirst : Obligations.CallThroughRegisterLinksFirst := by
  intro base hi lo
  exact ⟨decode_jsrr base hi lo, fun s => ⟨_, exec_jsrr base s, onlyPcAndLink_setPc_link ..⟩⟩

/-- Settles O21: either call leaves in R7 the incremented `pc`, which the jump moves back. -/
theorem callThenReturnRoundTrip : Obligations.CallThenReturnRoundTrip := by
  intro s t u v hcall hkept hreturn
  have hlink : t.reg .r7 = s.pc := by
    rcases hcall with ⟨off, h⟩ | ⟨base, -, h⟩
    · cases h
      exact s.reg_link_r7
    · cases h
      exact s.reg_link_r7
  have hback : v.pc = s.pc := by
    cases hreturn
    exact hkept.trans hlink
  exact ⟨hback, hback.trans s.fetchAddress_add_one.symm⟩

end Sys2Proof.Machine
end

section
/-! PROOFS. The load and store family (spec 42_load_store.md): LD, LDI, LDR and LEA (R126 to R129), ST, STI and STR (R130 to R132), double
indirection (R133), and a load after a store (R134). What a load leaves is said once, in `loadsFrom_loadInto`, and what a store answers in
`storesTo_memWrite`. -/

namespace Sys2Proof.Machine

open Sys2Proof.Claims

/-! ### The words of the loads and stores (R64, R125) -/

/-- A word written out as opcode, register and 9-bit offset is the instruction with these operand fields. -/
theorem decode_offset9_form (i : Instr) {r : Reg} {off : BitVec 9} (hi : operandBits i = place 9 r.bits ||| place 0 off) :
    decode (i.opcode.bits ++ r.bits ++ off) = i := by
  rw [append_opcode_reg_offset, BitVec.or_assoc, ← hi]
  exact decode_encode i

/-- A word written out as opcode, register, BaseR and 6-bit offset is the instruction with these operand fields. -/
theorem decode_offset6_form (i : Instr) {r base : Reg} {off : BitVec 6}
    (hi : operandBits i = place 9 r.bits ||| place 6 base.bits ||| place 0 off) :
    decode (i.opcode.bits ++ r.bits ++ base.bits ++ off) = i := by
  rw [append_two_register_form, BitVec.or_assoc, BitVec.or_assoc, ← BitVec.or_assoc (place 9 r.bits), ← hi]
  exact decode_encode i

/-- The base + offset address is R125's sum, modulo 2^16. -/
theorem State.baseOffset_eq_ofInt (s : State) (base : Reg) (off : BitVec 6) :
    s.baseOffset base off = BitVec.ofInt 16 ((s.reg base).toNat + off.toInt) :=
  add_sext_eq_ofInt (s.reg base) off

/-! ### What the loads and stores answer (R126 to R132) -/

theorem exec_ld (dr : Reg) (off : BitVec 9) (s : State) : exec (.ld dr off) s = .next (loadInto dr (s.pcRelative off) s) := rfl

theorem exec_ldi (dr : Reg) (off : BitVec 9) (s : State) :
    exec (.ldi dr off) s = .next (loadInto dr (memRead (s.pcRelative off) s).1 (memRead (s.pcRelative off) s).2) := rfl

theorem exec_ldr (dr base : Reg) (off : BitVec 6) (s : State) :
    exec (.ldr dr base off) s = .next (loadInto dr (s.baseOffset base off) s) := rfl

theorem exec_lea (dr : Reg) (off : BitVec 9) (s : State) : exec (.lea dr off) s = .next (writeDest dr (s.pcRelative off) s) := rfl

theorem exec_st (sr : Reg) (off : BitVec 9) (s : State) :
    exec (.st sr off) s = memWrite Config.machine (s.pcRelative off) (s.reg sr) s := rfl

theorem exec_sti (sr : Reg) (off : BitVec 9) (s : State) :
    exec (.sti sr off) s =
      memWrite Config.machine (memRead (s.pcRelative off) s).1 (s.reg sr) (memRead (s.pcRelative off) s).2 := rfl

theorem exec_str (sr base : Reg) (off : BitVec 6) (s : State) :
    exec (.str sr base off) s = memWrite Config.machine (s.baseOffset base off) (s.reg sr) s := rfl

/-- Off 0xFE00 the pointer read changes nothing, so STI is a store to the cell's word. -/
theorem exec_sti_plain (sr : Reg) (off : BitVec 9) {s : State} (h : s.pcRelative off ≠ kbsr) :
    exec (.sti sr off) s = memWrite Config.machine (s.cell (s.pcRelative off)) (s.reg sr) s := by
  rw [exec_sti, memRead_plain s h]

/-! ### What a load leaves -/

/-- `u` differs from `s` at most in memory, input and flags, as a state does that reads from `s` have left. -/
structure KeptByReads (s u : State) : Prop where
  regs : u.regs = s.regs
  pc : u.pc = s.pc
  conout : u.conout = s.conout
  control : SameControl s u

theorem KeptByReads.refl (s : State) : KeptByReads s s := ⟨rfl, rfl, rfl, rfl, rfl, rfl⟩

theorem KeptByReads.afterRead {s u : State} (h : KeptByReads s u) (a : Word) : KeptByReads s (memRead a u).2 := by
  obtain ⟨hregs, hpc, -, hrun, hfault, hout, hsus⟩ := memRead_frame a u
  obtain ⟨hrun', hfault', hsus'⟩ := h.control
  exact ⟨hregs.trans h.regs, hpc.trans h.pc, hout.trans h.conout, hrun.trans hrun', hfault.trans hfault', hsus.trans hsus'⟩

theorem KeptByReads.reg {s u : State} (h : KeptByReads s u) (r : Reg) : u.reg r = s.reg r :=
  congrArg (Regs.get · r) h.regs

/-- Off 0xFE00 a load gives the cell and changes neither memory nor input. -/
theorem loadInto_plain (dr : Reg) {ea : Word} {s : State} (h : ea ≠ kbsr) :
    (loadInto dr ea s).reg dr = s.cell ea ∧ SameMemory s (loadInto dr ea s) ∧ (loadInto dr ea s).conin = s.conin := by
  rw [loadInto, memRead_plain s h]
  exact ⟨writeDest_reg_self .., fun _ => rfl, rfl⟩

/-- Through a plain pointer to a plain cell, the load gives the cell of the cell. -/
theorem loadInto_memRead_plain (dr : Reg) {p : Word} {s : State} (hp : p ≠ kbsr) (hcell : s.cell p ≠ kbsr) :
    (loadInto dr (memRead p s).1 (memRead p s).2).reg dr = s.cell (s.cell p) ∧
      SameMemory s (loadInto dr (memRead p s).1 (memRead p s).2) ∧
      (loadInto dr (memRead p s).1 (memRead p s).2).conin = s.conin := by
  rw [memRead_plain s hp]
  exact loadInto_plain dr hcell

/-- A load is its read, then the write of its destination, whose frame is that of the two. -/
theorem loadsFrom_loadInto (dr : Reg) (ea : Word) {s₀ s : State} (h : KeptByReads s₀ s) :
    LoadsFrom dr ea s₀ s (loadInto dr ea s) := by
  have hkept := h.afterRead ea
  obtain ⟨hreg, hflag, hregs, -, hmem, ⟨hin, -⟩, -⟩ := onlyDest_writeDest dr (memRead ea s).1 (memRead ea s).2
  exact ⟨hreg, hflag, fun r hr => (hregs r hr).trans (hkept.reg r), hkept.pc, hmem, hin, hkept.conout, hkept.control,
    loadInto_plain dr⟩

/-! ### What a store answers (R45, R46) -/

/-- At a keyboard address `DEV_WRITE` decides. -/
theorem memWrite_keyboard (c : Config) {a : Word} (v : Word) (s : State) (ha : a = kbsr ∨ a = kbdr) :
    memWrite c a v s = if c.devWrite = .refuse then .refused (.deviceWrite a) else .next (s.storeCell a v) := by
  rw [memWrite, if_pos ha]
  cases c.devWrite <;> rfl

theorem storesTo_memWrite (ea v : Word) {s : State} (hwf : Memory.wf s.mem = true) :
    StoresTo ea v s (memWrite Config.machine ea v s) :=
  ⟨fun h0 h1 => ⟨_, memWrite_plain _ v s h0 h1, onlyCell_storeCell ea v hwf⟩, memWrite_keyboard _ v s⟩

/-! ### A load through what a load loaded (R133) -/

/-- A second write of a register leaves nothing of the first. -/
theorem Regs.set_set (f : Regs) (r : Reg) (v w : Word) : (f.set r v).set r w = f.set r w := by
  cases r <;> rfl

/-- A second destination write leaves nothing of the first, its flags included. -/
theorem writeDest_writeDest (r : Reg) (v w : Word) (s : State) : writeDest r w (writeDest r v s) = writeDest r w s := by
  simp only [writeDest, setFlags, State.reg_setReg_self]
  simp only [State.setReg, State.setCond, Regs.set_set]

/-- A read does not see a destination write, and leaves it standing. -/
theorem memRead_writeDest (a : Word) (r : Reg) (v : Word) (s : State) :
    memRead a (writeDest r v s) = ((memRead a s).1, writeDest r v (memRead a s).2) := by
  rcases memRead_cases a s with ⟨ha, h⟩ | ⟨rfl, hq, h⟩ | ⟨rfl, c, rest, hq, h⟩
  · rw [h, memRead_plain _ ha, writeDest_cell]
  · rw [h, memRead_kbsr_idle (s := writeDest r v s) hq]
    rfl
  · rw [h, memRead_kbsr_pending (s := writeDest r v s) hq]
    rfl

/-- A load into the register just written is that load alone. -/
theorem loadInto_writeDest (dr : Reg) (ea v : Word) (s : State) : loadInto dr ea (writeDest dr v s) = loadInto dr ea s := by
  rw [loadInto, memRead_writeDest, writeDest_writeDest, loadInto]

/-- LDR with offset 0 through its own destination loads from the address just written there. -/
theorem exec_ldr_self_writeDest (dr : Reg) (v : Word) (s : State) :
    exec (.ldr dr dr 0) (writeDest dr v s) = .next (loadInto dr v s) := by
  have hea : (writeDest dr v s).baseOffset dr 0 = v := (BitVec.add_zero _).trans (writeDest_reg_self dr v s)
  rw [exec_ldr, hea, loadInto_writeDest]

/-! ### A load after a store (R134) -/

/-- Every form of a store is one write of its word to its address, in a state with canonical memory. -/
theorem exec_of_isStoreOf {i : Instr} {v ea : Word} {s : State} (hwf : Memory.wf s.mem = true) (hi : IsStoreOf i v ea s) :
    ∃ s', Memory.wf s'.mem = true ∧ exec i s = memWrite Config.machine ea v s' := by
  rcases hi with ⟨sr, off, rfl, rfl, rfl⟩ | ⟨sr, off, rfl, rfl, rfl⟩ | ⟨sr, base, off, rfl, rfl, rfl⟩
  · exact ⟨s, hwf, exec_st sr off s⟩
  · exact ⟨_, memRead_wf _ hwf, exec_sti sr off s⟩
  · exact ⟨s, hwf, exec_str sr base off s⟩

/-- The status words of the keyboard (R42, R43). -/
theorem memRead_kbsr_value (s : State) : (memRead kbsr s).1 = 0 ∨ (memRead kbsr s).1 = 0x8000 := by
  cases hq : s.conin with
  | nil => exact .inl (by rw [memRead_kbsr_idle hq])
  | cons c rest => exact .inr (by rw [memRead_kbsr_pending hq])

/-- A read leaves as it was the cell its own word points to: it can change KBSR and KBDR only, and a status word is neither address. -/
theorem memRead_cell_value (a : Word) (s : State) : (memRead a s).2.cell (memRead a s).1 = s.cell (memRead a s).1 := by
  by_cases ha : a = kbsr
  · subst ha
    have hne : (memRead kbsr s).1 ≠ kbsr ∧ (memRead kbsr s).1 ≠ kbdr := by
      rcases memRead_kbsr_value s with h | h <;> rw [h] <;> decide
    exact memRead_cell_ne kbsr _ s hne.1 hne.2
  · rw [memRead_plain s ha]

/-- Every form of a load reads its address once, in a state in which the cell there is as it was. -/
theorem exec_of_isLoadOf {j : Instr} {dr : Reg} {ea : Word} {u : State} (hj : IsLoadOf j dr ea u) :
    ∃ u', u'.cell ea = u.cell ea ∧ exec j u = .next (loadInto dr ea u') := by
  rcases hj with ⟨off, rfl, rfl⟩ | ⟨off, rfl, rfl⟩ | ⟨base, off, rfl, rfl⟩
  · exact ⟨u, rfl, exec_ld dr off u⟩
  · exact ⟨_, memRead_cell_value _ u, exec_ldi dr off u⟩
  · exact ⟨u, rfl, exec_ldr dr base off u⟩

/-- A load from a plain address completes with the word of its cell. -/
theorem exec_isLoadOf_plain {j : Instr} {dr : Reg} {ea : Word} {u : State} (hj : IsLoadOf j dr ea u) (hea : ea ≠ kbsr) :
    ∃ w, exec j u = .next w ∧ w.reg dr = u.cell ea := by
  obtain ⟨u', hcell, hexec⟩ := exec_of_isLoadOf hj
  obtain ⟨hreg, -⟩ := loadInto_plain dr (s := u') hea
  exact ⟨_, hexec, hreg.trans hcell⟩

/-! ### The obligations -/

/-- Settles O25: one read, then the destination write. -/
theorem loadReadsPcRelative : Obligations.LoadReadsPcRelative := by
  intro dr off
  exact ⟨decode_offset9_form (.ld dr off) rfl, fun s =>
    ⟨s.pcRelative_eq_ofInt off, _, exec_ld dr off s, loadsFrom_loadInto dr _ (.refl s)⟩⟩

/-- Settles O26: the data is read in the state the pointer read left, which differs from the first in memory and input only. -/
theorem loadIndirectReadsTwice : Obligations.LoadIndirectReadsTwice := by
  intro dr off
  exact ⟨decode_offset9_form (.ldi dr off) rfl, fun s =>
    ⟨s.pcRelative_eq_ofInt off, _, exec_ldi dr off s, loadsFrom_loadInto dr _ ((KeptByReads.refl s).afterRead _),
      loadInto_memRead_plain dr⟩⟩

/-- Settles O27: the same from the base register, read before the destination is written. -/
theorem loadReadsBasePlusOffset : Obligations.LoadReadsBasePlusOffset := by
  intro dr base off
  exact ⟨decode_offset6_form (.ldr dr base off) rfl, fun s =>
    ⟨s.baseOffset_eq_ofInt base off, _, exec_ldr dr base off s, loadsFrom_loadInto dr _ (.refl s)⟩⟩

/-- Settles O28: LEA is the destination write alone. -/
theorem leaWritesTheAddress : Obligations.LeaWritesTheAddress := by
  intro dr off
  refine ⟨decode_offset9_form (.lea dr off) rfl, fun s => ⟨_, exec_lea dr off s, ?_⟩⟩
  rw [State.pcRelative_eq_ofInt]
  exact onlyDest_writeDest ..

/-- Settles O29: one write at the PC-relative address. -/
theorem storeWritesPcRelative : Obligations.StoreWritesPcRelative := by
  intro sr off
  refine ⟨decode_offset9_form (.st sr off) rfl, fun s hwf => ⟨s.pcRelative_eq_ofInt off, ?_⟩⟩
  rw [exec_st]
  exact storesTo_memWrite _ _ hwf

/-- Settles O30: the write is done in the state the pointer read left, which is canonical and, off 0xFE00, the first one. -/
theorem storeIndirectWritesThroughThePointer : Obligations.StoreIndirectWritesThroughThePointer := by
  intro sr off
  refine ⟨decode_offset9_form (.sti sr off) rfl, fun s hwf => ⟨s.pcRelative_eq_ofInt off, ?_, fun hptr => ?_⟩⟩
  · rw [exec_sti]
    exact storesTo_memWrite _ _ (memRead_wf _ hwf)
  · rw [exec_sti_plain sr off hptr]
    exact storesTo_memWrite _ _ hwf

/-- Settles O31: one write at the base + offset address. -/
theorem storeWritesBasePlusOffset : Obligations.StoreWritesBasePlusOffset := by
  intro sr base off
  refine ⟨decode_offset6_form (.str sr base off) rfl, fun s hwf => ⟨s.baseOffset_eq_ofInt base off, ?_⟩⟩
  rw [exec_str]
  exact storesTo_memWrite _ _ hwf

/-- Settles O32: LDR overwrites the register and the flags LD wrote, and reads in the state LD's read left. -/
theorem doubleIndirection : Obligations.DoubleIndirection := by
  intro dr off s
  refine ⟨_, _, exec_ld dr off s, exec_ldr_self_writeDest dr _ _, exec_ldi dr off s, loadInto_reg_self .., fun hptr hcell => ?_⟩
  obtain ⟨hreg, -⟩ := loadInto_memRead_plain dr hptr hcell
  exact hreg

/-- Settles O33: a store that is not refused leaves its word in the cell, where every load finds it. -/
theorem loadAfterStoreGivesTheStoredWord : Obligations.LoadAfterStoreGivesTheStoredWord := by
  intro i v ea s hwf hi hea
  obtain ⟨s', hwf', hexec⟩ := exec_of_isStoreOf hwf hi
  rcases memWrite_cases Config.machine ea v s' with hw | ⟨hkey, hrefuse, hw⟩
  · refine .inl ⟨_, hexec.trans hw, fun j dr u hmem hj => ?_⟩
    have hcell : u.cell ea = v := (hmem ea).trans (s'.cell_storeCell_self ea v hwf')
    exact hcell ▸ exec_isLoadOf_plain hj hea
  · obtain rfl : ea = kbdr := hkey.resolve_left hea
    exact .inr ⟨rfl, hrefuse, hexec.trans hw⟩

end Sys2Proof.Machine
end

section
/-! PROOFS. The trap-system family (spec 43_trap_system.md): TRAP and its link (R145, R153), the routines of the trap unit (R147 to R152,
R184), and the illegal opcodes (R154, R155). PUTS and PUTSP run one loop, `stringLoop`, of which what a string prints, and what its
reads do to memory and input, is said once. -/

namespace Sys2Proof.Machine

open Sys2Proof.Claims

/-! ### The words of TRAP, RTI and RES (R64, R69) -/

theorem decode_trap (x : BitVec 4) (v : BitVec 8) : decode (0b1111#4 ++ x ++ v) = .trap v := by
  have hop : Opcode.ofBits 0b1111#4 = .trap := rfl
  have hword : (0b1111#4 ++ x ++ v : Word) = place 12 0b1111#4 ||| place 8 x ||| place 0 v :=
    (append_eq_place rfl _ v).trans (by simp only [place_append])
  rw [hword]
  simp (disch := omega) [decode, slice_or, slice_place_self, slice_place_ne, hop]

theorem encode_rti (low : BitVec 12) : encode (.rti low) = 0b1000#4 ++ low := (append_eq_place rfl _ low).symm

theorem encode_res (low : BitVec 12) : encode (.res low) = 0b1101#4 ++ low := (append_eq_place rfl _ low).symm

/-- The word of an illegal instruction is the opcode times 2^12, plus the low 12 bits. -/
theorem illegalWord_eq_ofNat (o : BitVec 4) (low : BitVec 12) :
    illegalWord o low = BitVec.ofNat 16 (o.toNat * 4096 + low.toNat) := by
  apply BitVec.eq_of_toNat_eq
  rw [illegalWord, BitVec.toNat_append, ← Nat.shiftLeft_add_eq_or_of_lt low.isLt, Nat.shiftLeft_eq, BitVec.toNat_ofNat]
  omega

/-! ### What TRAP, RTI and RES answer (R145, R154, R155) -/

theorem exec_trap (v : BitVec 8) (s : State) : exec (.trap v) s = .next (trapUnit Config.machine v s.link) := rfl

theorem exec_getc (s : State) : exec (.trap 0x20) s = .next (getcRoutine s.link) := rfl

theorem exec_out (s : State) : exec (.trap 0x21) s = .next (outRoutine s.link) := rfl

theorem exec_puts (s : State) : exec (.trap 0x22) s = .next (putsRoutine Config.machine s.link) := rfl

theorem exec_in (s : State) : exec (.trap 0x23) s = .next (inRoutine Config.machine s.link) := rfl

theorem exec_putsp (s : State) : exec (.trap 0x24) s = .next (putspRoutine Config.machine s.link) := rfl

theorem exec_halt (s : State) : exec (.trap 0x25) s = .next (haltRoutine Config.machine s.link) := rfl

theorem exec_rti (low : BitVec 12) (s : State) :
    exec (.rti low) s = .next (raiseIllegalOpcode (s.pc - 1) (BitVec.ofNat 16 (0x8000 + low.toNat)) s) :=
  congrArg (fun w => Host.Outcome.next (raiseIllegalOpcode (s.pc - 1) w s)) (illegalWord_eq_ofNat 0x8 low)

theorem exec_res (low : BitVec 12) (s : State) :
    exec (.res low) s = .next (raiseIllegalOpcode (s.pc - 1) (BitVec.ofNat 16 (0xD000 + low.toNat)) s) :=
  congrArg (fun w => Host.Outcome.next (raiseIllegalOpcode (s.pc - 1) w s)) (illegalWord_eq_ofNat 0xD low)

/-! ### Small facts of the link, the output and the character -/

theorem sameRegsBut_link (s : State) : SameRegsBut [.r7] s s.link := fun r hr => by
  rw [State.reg_link, if_neg (List.ne_of_not_mem_cons hr)]

@[simp] theorem State.reg_link_r0 (s : State) : s.link.reg .r0 = s.reg .r0 := rfl

@[simp] theorem State.emit_nil (s : State) : s.emit [] = s := by
  simp [State.emit]

@[simp] theorem State.emit_emit (es fs : List ConEvent) (s : State) : (s.emit es).emit fs = s.emit (es ++ fs) := by
  simp [State.emit]

/-- A zero-extended character is never negative. -/
theorem condOf_zext_ne_neg (b : Byte) : condOf (zext b) ≠ .neg := by
  rw [Ne, condOf_neg_iff, sign_bit_iff, zext, BitVec.toNat_setWidth]
  have := b.isLt
  omega

/-- What GETC and IN leave when they have taken `b` and printed `es`. -/
def characterTaken (b : Byte) (rest : List Byte) (es : List ConEvent) (s : State) : State :=
  writeDest .r0 (zext b) (((s.setConin rest).setSuspended none).emit es)

theorem onlyCharacterTaken_link (b : Byte) (rest : List Byte) (es : List ConEvent) (s : State) :
    OnlyCharacterTaken b rest es s (characterTaken b rest es s.link) := by
  rw [OnlyCharacterTaken, BitVec.ofNat_toNat]
  refine ⟨writeDest_reg_self .., flagOf_condOf (zext b), condOf_zext_ne_neg b, ?_, fun r hr => ?_, rfl, rfl, rfl, fun _ => rfl, rfl,
    rfl, rfl⟩
  · exact (writeDest_reg ..).trans s.reg_link_r7
  · rw [characterTaken, writeDest_reg, if_neg (List.ne_of_not_mem_cons hr)]
    exact sameRegsBut_link s r (List.not_mem_of_not_mem_cons hr)

/-- A routine that prints `es`, completes and changes nothing else. -/
theorem onlyLinkAndOutput_link (es : List ConEvent) (s : State) :
    OnlyLinkAndOutput es s ((s.link.emit es).setSuspended none) :=
  ⟨s.reg_link_r7, rfl, sameRegsBut_link s, rfl, rfl, fun _ => rfl, rfl, rfl, rfl, rfl⟩

/-- A wait entered after printing `es`. -/
theorem onlyLinkAndWait_link (w : Suspended) (es : List ConEvent) (s : State) :
    OnlyLinkAndWait w es s ((s.link.emit es).setSuspended (some w)) :=
  ⟨rfl, s.reg_link_r7, sameRegsBut_link s, rfl, rfl, fun _ => rfl, rfl, rfl, rfl, rfl⟩

theorem getcRoutine_eq_characterTaken {s : State} {b : Byte} {rest : List Byte} (h : s.conin = b :: rest) :
    getcRoutine s = characterTaken b rest [] s := by
  rw [getcRoutine_takes h, characterTaken, State.emit_nil]

theorem inRoutine_eq_characterTaken (c : Config) {s : State} {b : Byte} {rest : List Byte} (h : s.conin = b :: rest) :
    inRoutine c s = characterTaken b rest (c.inPrompt.map .byte ++ [.flush, .byte b, .flush]) s := by
  have hout : ∀ u : State, (u.emit (byteEvents c.inPrompt ++ [.flush])).emit [.byte b, .flush] =
      u.emit (c.inPrompt.map .byte ++ [.flush, .byte b, .flush]) := by simp [byteEvents]
  rw [inRoutine, inRead_takes (s := s.emit _) h, characterTaken, ← hout]
  rfl

theorem inRoutine_waits (c : Config) {s : State} (h : s.conin = []) :
    inRoutine c s = (s.emit (c.inPrompt.map .byte ++ [.flush])).setSuspended (some .inWaits) :=
  inRead_waits (s := s.emit _) h

/-! ### The loop of the string routines (R149, R150) -/

section StringLoop

variable (c : Config) (out : Word → List ConEvent) (last : List ConEvent) (stand : Word → Suspended)

/-- The loop PUTS and PUTSP share: `out` is printed for a word, `last` at the terminator, and a string that does not end leaves the
routine at `stand` of its next address. -/
def stringLoop (fuel : Nat) (a : Word) (s : State) : State :=
  match fuel with
  | 0 => s.setSuspended (some (stand a))
  | n + 1 =>
    if (strRead c a s).1 = 0 then ((strRead c a s).2.emit last).setSuspended none
    else stringLoop n (a + 1) ((strRead c a s).2.emit (out (strRead c a s).1))

theorem putsLoop_eq_stringLoop (n : Nat) (a : Word) (s : State) :
    putsLoop c n a s = stringLoop c (fun w => [.byte (lowByte w)]) [.flush] .putsAt n a s := by
  induction n generalizing a s with
  | zero => rfl
  | succ n ih => rw [putsLoop, stringLoop, ih]

theorem putspLoop_eq_stringLoop (n : Nat) (a : Word) (s : State) :
    putspLoop c n a s = stringLoop c packedEvents [] .putspAt n a s := by
  induction n generalizing a s with
  | zero => rfl
  | succ n ih => rw [putspLoop, stringLoop, ih, State.emit_nil]

/-- Words read straight are printed one by one, and the loop goes on after them. -/
theorem stringLoop_straightWords (n : Nat) (a : Word) (ws : List Word) (s : State) (h : StraightWords c a ws s) :
    stringLoop c out last stand (ws.length + n) a s =
      stringLoop c out last stand n (a + BitVec.ofNat 16 ws.length) (s.emit (ws.flatMap out)) := by
  induction ws generalizing a s with
  | nil => simp
  | cons w ws ih =>
    obtain ⟨hread, hne, htail⟩ := straightWords_cons h
    rw [List.length_cons, Nat.add_right_comm, stringLoop, hread, if_neg hne, ih (a + 1) (s.emit (out w)) htail, State.emit_emit,
      ← List.flatMap_cons, add_ofNat_succ]

/-- A string with a terminator, read straight, is printed whole, then `last`. -/
theorem stringLoop_stringAt {a : Word} {ws : List Word} {s : State} (h : StringAt s a ws)
    (hread : c.trapStringIntercept = false ∨ AvoidsKbsr a ws) :
    stringLoop c out last stand memoryWords a s = (s.emit (ws.flatMap out ++ last)).setSuspended none := by
  obtain ⟨hlen, hwords, hend⟩ := h
  have hstraight : StraightWords c a ws s := fun i w hi =>
    let ⟨hcell, hne⟩ := hwords i w hi
    ⟨hcell, hne, hread.imp_right (· i (List.getElem?_eq_some_iff.1 hi).1.le)⟩
  have hzero : strRead c (a + BitVec.ofNat 16 ws.length) (s.emit (ws.flatMap out)) = (0, s.emit (ws.flatMap out)) := by
    rw [strRead_straight c _ _ (hread.imp_right (· _ le_rfl)), State.cell_emit, hend]
  obtain ⟨n, hn⟩ : ∃ n, memoryWords = ws.length + (n + 1) := ⟨65535 - ws.length, by rw [memoryWords]; omega⟩
  rw [hn, stringLoop_straightWords c out last stand _ a ws s hstraight, stringLoop, hzero, if_pos rfl, State.emit_emit]

/-- In a memory with no zero word the `n` words from `a` on are read straight. -/
theorem straightWords_wordsFrom {s : State} (hoff : c.trapStringIntercept = false) (hnz : ∀ a, s.cell a ≠ 0) (a : Word) (n : Nat) :
    StraightWords c a (wordsFrom s a n) s := by
  intro i w hi
  obtain ⟨-, rfl⟩ : i < n ∧ s.cell (a + BitVec.ofNat 16 i) = w := by
    simpa [wordsFrom, List.getElem?_eq_some_iff] using hi
  exact ⟨rfl, hnz _, .inl hoff⟩

/-- With no terminator in memory, all 65,536 words are printed and the loop stands where it began. -/
theorem onlyOutputAndStandsAt_stringLoop {s : State} (hoff : c.trapStringIntercept = false) (hnz : ∀ a, s.cell a ≠ 0) (a : Word) :
    OnlyOutputAndStandsAt (stand a) ((wordsFrom s a 65536).flatMap out) s (stringLoop c out last stand memoryWords a s) := by
  have hlen : (wordsFrom s a 65536).length = 65536 := by rw [wordsFrom, List.length_map, List.length_range]
  have hwrap : a + BitVec.ofNat 16 65536 = a := BitVec.add_zero a
  have hloop := stringLoop_straightWords c out last stand 0 a _ s (straightWords_wordsFrom c hoff hnz a 65536)
  rw [hlen, hwrap] at hloop
  exact hloop ▸ ⟨rfl, rfl, fun _ _ => rfl, rfl, rfl, fun _ => rfl, rfl, rfl, rfl⟩

end StringLoop

/-! ### What the reads of a string do to memory and input (R54) -/

/-- Memory and the input queue, which is what a read of 0xFE00 sees and can change. -/
def State.memInput (s : State) : Memory × List Byte := (s.mem, s.conin)

theorem sameMemory_of_memInput {s t : State} (h : t.memInput = s.memInput) : SameMemory s t ∧ t.conin = s.conin := by
  obtain ⟨hmem, hin⟩ : t.mem = s.mem ∧ t.conin = s.conin := Prod.mk.inj h
  exact ⟨fun a => congrArg (Memory.get · a.toNat) hmem, hin⟩

theorem memInput_memRead_kbsr {s t : State} (h : t.memInput = s.memInput) :
    (memRead kbsr t).2.memInput = (memRead kbsr s).2.memInput := by
  obtain ⟨hmem, hin⟩ : t.mem = s.mem ∧ t.conin = s.conin := Prod.mk.inj h
  cases hq : s.conin with
  | nil =>
    rw [memRead_kbsr_idle hq, memRead_kbsr_idle (hin.trans hq)]
    simp [State.memInput, hmem, hin]
  | cons b rest =>
    rw [memRead_kbsr_pending hq, memRead_kbsr_pending (hin.trans hq)]
    simp [State.memInput, keyTaken, hmem]

/-- Of memory and input, at most what one read of 0xFE00 changes, and that only where strings are read through the intercept and one of
the `n` addresses from `a` on is 0xFE00. -/
def StatusReadWithin (c : Config) (n : Nat) (a : Word) (s t : State) : Prop :=
  t.memInput = s.memInput ∨
    (c.trapStringIntercept = true ∧ (∃ i < n, a + BitVec.ofNat 16 i = kbsr) ∧ t.memInput = (memRead kbsr s).2.memInput)

theorem statusReadWithin_strRead (c : Config) (a : Word) (es : List ConEvent) (s : State) :
    StatusReadWithin c 1 a s ((strRead c a s).2.emit es) := by
  rcases strRead_cases c a s with h | ⟨ha, hon, h⟩
  · exact .inl (by rw [h]; rfl)
  · exact .inr ⟨hon, ⟨0, Nat.one_pos, (BitVec.add_zero a).trans ha⟩, by rw [h, ha]; rfl⟩

/-- One address, then the `n` after it: 0xFE00 is met once, as fewer than 65,536 addresses lie between two meetings. -/
theorem StatusReadWithin.succ {c : Config} {n : Nat} {a : Word} {s t u : State} (hn : n < 65536)
    (h : StatusReadWithin c 1 a s t) (h' : StatusReadWithin c n (a + 1) t u) : StatusReadWithin c (n + 1) a s u := by
  rcases h with h | ⟨hon, ⟨i, hi, ha⟩, h⟩
  · rcases h' with h' | ⟨hon, ⟨j, hj, hmeet⟩, h'⟩
    · exact .inl (h'.trans h)
    · exact .inr ⟨hon, ⟨j + 1, by omega, (add_ofNat_succ a j).trans hmeet⟩, h'.trans (memInput_memRead_kbsr h)⟩
  · obtain rfl : i = 0 := by omega
    rcases h' with h' | ⟨-, ⟨j, hj, hmeet⟩, -⟩
    · exact .inr ⟨hon, ⟨0, n.succ_pos, ha⟩, h'.trans h⟩
    · have hmeet' := (add_ofNat_succ a j).trans (hmeet.trans ha.symm)
      have hzero := congrArg BitVec.toNat (BitVec.add_right_inj a |>.1 hmeet')
      rw [BitVec.toNat_ofNat, BitVec.toNat_ofNat] at hzero
      omega

/-- A loop over at most 65,536 words. -/
theorem statusReadWithin_stringLoop (c : Config) (out : Word → List ConEvent) (last : List ConEvent) (stand : Word → Suspended)
    {n : Nat} (hn : n ≤ 65536) (a : Word) (s : State) : StatusReadWithin c n a s (stringLoop c out last stand n a s) := by
  induction n generalizing a s with
  | zero => exact .inl rfl
  | succ n ih =>
    rw [stringLoop]
    split
    · exact (statusReadWithin_strRead c a last s).succ (by omega) (.inl rfl)
    · exact (statusReadWithin_strRead c a _ s).succ (by omega) (ih (by omega) (a + 1) _)

/-! ### What the trap unit keeps (R145, R153) -/

/-- Off the six routines' vectors nothing happens. -/
theorem trapUnit_undefined (c : Config) {v : BitVec 8} (s : State) (hv : v.toNat < 0x20 ∨ 0x25 < v.toNat) :
    trapUnit c v s = s := by
  rcases trapUnit_cases c v s with ⟨rfl, -⟩ | ⟨rfl, -⟩ | ⟨rfl, -⟩ | ⟨rfl, -⟩ | ⟨rfl, -⟩ | ⟨rfl, -⟩ | ⟨-, h⟩
  iterate 6 · exact absurd hv (by decide)
  exact h

/-- Every routine but GETC and IN leaves the registers as they were. -/
theorem trapUnit_regs (c : Config) {v : BitVec 8} (s : State) (hgetc : v ≠ 0x20) (hin : v ≠ 0x23) :
    (trapUnit c v s).regs = s.regs := by
  rcases trapUnit_cases c v s with ⟨hv, -⟩ | ⟨-, h⟩ | ⟨-, h⟩ | ⟨hv, -⟩ | ⟨-, h⟩ | ⟨-, h⟩ | ⟨-, h⟩
  · exact absurd hv hgetc
  · exact h ▸ rfl
  · obtain ⟨hregs, -⟩ := putsLoop_frame c memoryWords (s.reg .r0) s
    exact h ▸ hregs
  · exact absurd hv hin
  · obtain ⟨hregs, -⟩ := putspLoop_frame c memoryWords (s.reg .r0) s
    exact h ▸ hregs
  · exact h ▸ rfl
  · rw [h]

theorem getcRoutine_frame (s : State) :
    (getcRoutine s).mem = s.mem ∧ (getcRoutine s).conin = s.conin.tail ∧ (getcRoutine s).conout = s.conout := by
  cases hq : s.conin with
  | nil =>
    rw [getcRoutine_waits hq]
    exact ⟨rfl, hq, rfl⟩
  | cons b rest =>
    rw [getcRoutine_takes hq]
    exact ⟨rfl, rfl, rfl⟩

theorem inRoutine_frame (c : Config) (s : State) : (inRoutine c s).mem = s.mem ∧ (inRoutine c s).conin = s.conin.tail := by
  cases hq : s.conin with
  | nil =>
    rw [inRoutine_waits c hq]
    exact ⟨rfl, hq⟩
  | cons b rest =>
    rw [inRoutine_eq_characterTaken c hq]
    exact ⟨rfl, rfl⟩

/-- GETC and IN take at most the head of the queue, and leave memory as it was. -/
theorem trapUnit_takes (c : Config) {v : BitVec 8} (s : State) (hv : v = 0x20 ∨ v = 0x23) :
    (trapUnit c v s).mem = s.mem ∧ (trapUnit c v s).conin = s.conin.tail := by
  rcases hv with rfl | rfl
  · obtain ⟨hmem, hin, -⟩ := getcRoutine_frame s
    exact ⟨hmem, hin⟩
  · exact inRoutine_frame c s

/-- The other routines leave memory and input as they were, or PUTS or PUTSP has read 0xFE00 once through the intercept. -/
theorem trapUnit_memInput (c : Config) {v : BitVec 8} (s : State) (hgetc : v ≠ 0x20) (hin : v ≠ 0x23) :
    (trapUnit c v s).memInput = s.memInput ∨
      (c.trapStringIntercept = true ∧ (v = 0x22 ∨ v = 0x24) ∧ (trapUnit c v s).memInput = (memRead kbsr s).2.memInput) := by
  rcases trapUnit_cases c v s with ⟨hv, -⟩ | ⟨-, h⟩ | ⟨hv, h⟩ | ⟨hv, -⟩ | ⟨hv, h⟩ | ⟨-, h⟩ | ⟨-, h⟩
  · exact absurd hv hgetc
  · exact .inl (h ▸ rfl)
  · rw [h, putsRoutine, putsLoop_eq_stringLoop]
    exact (statusReadWithin_stringLoop c _ _ _ le_rfl _ s).imp_right fun ⟨hon, _, hread⟩ => ⟨hon, .inl hv, hread⟩
  · exact absurd hv hin
  · rw [h, putspRoutine, putspLoop_eq_stringLoop]
    exact (statusReadWithin_stringLoop c _ _ _ le_rfl _ s).imp_right fun ⟨hon, _, hread⟩ => ⟨hon, .inr hv, hread⟩
  · exact .inl (h ▸ rfl)
  · exact .inl (by rw [h])

theorem trapUnit_sameMemory (c : Config) {v : BitVec 8} (s : State)
    (hplain : c.trapStringIntercept = false ∨ (v ≠ 0x22 ∧ v ≠ 0x24)) : SameMemory s (trapUnit c v s) := by
  by_cases hv : v = 0x20 ∨ v = 0x23
  · obtain ⟨hmem, -⟩ := trapUnit_takes c s hv
    exact fun a => congrArg (Memory.get · a.toNat) hmem
  · obtain ⟨hgetc, hin⟩ := not_or.1 hv
    rcases trapUnit_memInput c s hgetc hin with h | ⟨hon, hstring, -⟩
    · exact (sameMemory_of_memInput h).1
    · rcases hplain with hoff | ⟨hputs, hputsp⟩
      · exact absurd (hoff.symm.trans hon) nofun
      · exact absurd hstring (not_or.2 ⟨hputs, hputsp⟩)

theorem trapUnit_cell_ne (c : Config) (v : BitVec 8) (s : State) {a : Word} (h0 : a ≠ kbsr) (h1 : a ≠ kbdr) :
    (trapUnit c v s).cell a = s.cell a := by
  rcases trapUnit_cases c v s with ⟨hv, -⟩ | ⟨-, h⟩ | ⟨-, h⟩ | ⟨hv, -⟩ | ⟨-, h⟩ | ⟨-, h⟩ | ⟨-, h⟩
  · exact congrArg (Memory.get · a.toNat) (trapUnit_takes c s (.inl hv)).1
  · exact h ▸ rfl
  · exact h ▸ putsLoop_cell_ne c memoryWords _ a s h0 h1
  · exact congrArg (Memory.get · a.toNat) (trapUnit_takes c s (.inr hv)).1
  · exact h ▸ putspLoop_cell_ne c memoryWords _ a s h0 h1
  · exact h ▸ rfl
  · rw [h]

/-- Output only grows. -/
theorem trapUnit_conout_prefix (c : Config) (v : BitVec 8) (s : State) : s.conout <+: (trapUnit c v s).conout := by
  by_cases hv : v = 0x25
  · subst hv
    exact List.prefix_append _ _
  · exact (continues_trapUnit c s hv).conout

/-- GETC and the undefined vectors print nothing. -/
theorem trapUnit_conout (c : Config) {v : BitVec 8} (s : State) (hv : v.toNat ≤ 0x20 ∨ 0x25 < v.toNat) :
    (trapUnit c v s).conout = s.conout := by
  by_cases hgetc : v = 0x20
  · subst hgetc
    obtain ⟨-, -, hout⟩ := getcRoutine_frame s
    exact hout
  · have hne : v.toNat ≠ 0x20 := fun h => hgetc (BitVec.eq_of_toNat_eq h)
    rw [trapUnit_undefined c s (by omega)]

/-- OUT, HALT and the undefined vectors leave the place of an unfinished routine. -/
theorem trapUnit_suspended (c : Config) {v : BitVec 8} (s : State)
    (hv : v.toNat < 0x20 ∨ 0x25 < v.toNat ∨ v = 0x21 ∨ v = 0x25) : (trapUnit c v s).suspended = s.suspended := by
  rcases hv with hv | hv | rfl | rfl
  · rw [trapUnit_undefined c s (.inl hv)]
  · rw [trapUnit_undefined c s (.inr hv)]
  · rfl
  · rfl

/-! ### An unfinished string routine goes on (R184, D22) -/

theorem putsEvents_eq_flatMap (ws : List Word) : putsEvents ws = ws.flatMap fun w => [.byte (lowByte w)] := by
  simp only [putsEvents, lowByte_eq_ofNat, List.map_eq_flatMap]

/-- The high byte is the word divided by 2^8. -/
theorem highByte_eq_ofNat (w : Word) : highByte w = BitVec.ofNat 8 (w.toNat / 256) := by
  apply BitVec.eq_of_toNat_eq
  simp [highByte, Nat.shiftRight_eq_div_pow]

theorem highByte_eq_zero_iff (w : Word) : highByte w = 0 ↔ w.toNat / 256 = 0 := by
  have hzero : (0 : Byte).toNat = 0 := rfl
  rw [highByte_eq_ofNat, ← BitVec.toNat_inj, BitVec.toNat_ofNat, hzero]
  omega

theorem putspEvents_eq_flatMap (ws : List Word) : putspEvents ws = ws.flatMap packedEvents := by
  refine congrArg (ws.flatMap ·) (funext fun w => ?_)
  rw [packedEvents, ← lowByte_eq_ofNat, ← highByte_eq_ofNat]
  simp only [highByte_eq_zero_iff]
  split <;> rfl

theorem resume_putsAt_unterminated {c : Config} {s : State} (hoff : c.trapStringIntercept = false) (hnz : ∀ a, s.cell a ≠ 0)
    (a : Word) :
    OnlyOutputAndStandsAt (.putsAt a) (putsEvents (wordsFrom s a 65536)) s (resumeRoutine c (.putsAt a) s) := by
  rw [resumeRoutine, putsLoop_eq_stringLoop, putsEvents_eq_flatMap]
  exact onlyOutputAndStandsAt_stringLoop c _ _ .putsAt hoff hnz a

theorem resume_putspAt_unterminated {c : Config} {s : State} (hoff : c.trapStringIntercept = false) (hnz : ∀ a, s.cell a ≠ 0)
    (a : Word) :
    OnlyOutputAndStandsAt (.putspAt a) (putspEvents (wordsFrom s a 65536)) s (resumeRoutine c (.putspAt a) s) := by
  rw [resumeRoutine, putspLoop_eq_stringLoop, putspEvents_eq_flatMap]
  exact onlyOutputAndStandsAt_stringLoop c _ _ .putspAt hoff hnz a

theorem stillStandsAt_of_onlyOutput {w : Suspended} {es : List ConEvent} {s t : State} (h : OnlyOutputAndStandsAt w es s t) :
    StillStandsAt w s t := by
  obtain ⟨hsus, -, -, -, -, hmem, -, hrun, -⟩ := h
  exact ⟨hsus, hrun, hmem⟩

/-- A place that every round in the memory of `s` keeps is kept by any number of rounds. -/
theorem stillStandsAt_rounds {c : Config} {w : Suspended} {s : State}
    (hround : ∀ u, SameMemory s u → StillStandsAt w u (resumeRoutine c w u)) (arrivals : List (List Byte)) {t : State}
    (h : StillStandsAt w s t) : StillStandsAt w s (rounds c arrivals t) := by
  induction arrivals generalizing t with
  | nil => exact h
  | cons bs rest ih =>
    obtain ⟨hsus, hrun, hmem⟩ := h
    have hgo : goOn c (t.setConin (t.conin ++ bs)) = resumeRoutine c w (t.setConin (t.conin ++ bs)) := by
      rw [goOn, State.suspended_setConin, hsus]
    obtain ⟨hsus', hrun', hmem'⟩ := hround (t.setConin (t.conin ++ bs)) hmem
    rw [rounds, hgo]
    exact ih ⟨hsus', hrun'.trans hrun, fun a => (hmem' a).trans (hmem a)⟩

/-- In RUN with a routine unfinished, a step is one round of it. -/
theorem step_eq_goOn {s : State} (hrun : s.run = .run) (hsus : s.suspended.isSome = true) :
    step s = .next (goOn Config.machine s) := by
  obtain ⟨r, hr⟩ := Option.isSome_iff_exists.1 hsus
  simp only [step, goOn, hrun, hr]

/-! ### The obligations -/

/-- Settles O35: the frame of the trap unit, clause by clause, in the linked state. -/
theorem trapLinksForEveryVector : Obligations.TrapLinksForEveryVector := by
  intro x v
  refine ⟨decode_trap x v, fun s => ⟨_, exec_trap v s, ?_⟩⟩
  obtain ⟨hregs, hpc, hfault⟩ := trapUnit_frame Config.machine v s.link
  refine ⟨(hregs .r7 nofun).trans s.reg_link_r7, hpc, fun r hr => ?_, hfault, fun hgetc hin => ?_,
    fun hhalt => (continues_trapUnit _ s.link hhalt).run, fun a h0 h1 => trapUnit_cell_ne _ v s.link h0 h1, fun hplain => ?_,
    fun htakes => (trapUnit_takes _ s.link htakes).2, fun hgetc hin => ?_, trapUnit_conout_prefix _ v s.link,
    trapUnit_conout _ s.link, trapUnit_suspended _ s.link⟩
  · have hlink := sameRegsBut_link s r (List.not_mem_of_not_mem_cons hr)
    exact (hregs r (List.ne_of_not_mem_cons hr)).trans hlink
  · have hr0 := congrArg (Regs.get · .r0) (trapUnit_regs Config.machine s.link hgetc hin)
    exact ⟨hr0.trans s.reg_link_r0, trapUnit_cond _ s.link hgetc hin⟩
  · exact trapUnit_sameMemory _ s.link hplain
  · rcases trapUnit_memInput Config.machine s.link hgetc hin with h | ⟨hon, hv, h⟩
    · exact .inl (sameMemory_of_memInput h)
    · exact .inr ⟨hon, hv, sameMemory_of_memInput (h.trans (memInput_memRead_kbsr rfl))⟩

/-- Settles O36: GETC on a queue with a head, and on an empty one. -/
theorem getcTakesACharacterOrWaits : Obligations.GetcTakesACharacterOrWaits := by
  intro s
  refine ⟨fun b rest hq => ⟨_, ?_, onlyCharacterTaken_link b rest [] s⟩, fun hq => ⟨_, ?_, onlyLinkAndWait_link .getcWaits [] s⟩⟩
  · rw [exec_getc, getcRoutine_eq_characterTaken (s := s.link) hq]
  · rw [exec_getc, getcRoutine_waits (s := s.link) hq, State.emit_nil]

/-- Settles O38: a terminated string is printed whole, then the flush. -/
theorem putsPrintsUpToTheZeroWord : Obligations.PutsPrintsUpToTheZeroWord := by
  intro s ws hstring hread
  have hputs : putsRoutine Config.machine s.link = (s.link.emit (putsEvents ws ++ [.flush])).setSuspended none := by
    rw [putsRoutine, putsLoop_eq_stringLoop, putsEvents_eq_flatMap]
    exact stringLoop_stringAt _ _ _ _ (s := s.link) hstring hread
  exact ⟨_, by rw [exec_puts, hputs], onlyLinkAndOutput_link _ s⟩

/-- Settles O39: a terminated string is printed whole, and nothing after it. -/
theorem putspPrintsPackedCharacters : Obligations.PutspPrintsPackedCharacters := by
  intro s ws hstring hread
  have hputsp : putspRoutine Config.machine s.link = (s.link.emit (putspEvents ws)).setSuspended none := by
    rw [putspRoutine, putspLoop_eq_stringLoop, putspEvents_eq_flatMap, ← List.append_nil (ws.flatMap _)]
    exact stringLoop_stringAt _ _ _ _ (s := s.link) hstring hread
  exact ⟨_, by rw [exec_putsp, hputsp], onlyLinkAndOutput_link _ s⟩

/-- Settles O41: the routines' first round is a round from the address in R0, and each round keeps the memory it is read from. -/
theorem unterminatedStringNeverCompletes : Obligations.UnterminatedStringNeverCompletes := by
  refine ⟨fun s => ⟨exec_puts s, exec_putsp s⟩, fun s => step_eq_goOn, fun c s hoff hnz => ?_⟩
  have hputs := resume_putsAt_unterminated hoff hnz
  have hputsp := resume_putspAt_unterminated hoff hnz
  have hnz' : ∀ u, SameMemory s u → ∀ a, u.cell a ≠ 0 := fun u hmem a => hmem a ▸ hnz a
  refine ⟨hputs _, hputsp _, hputs, hputsp, fun arrivals => ⟨?_, ?_⟩⟩
  · exact stillStandsAt_rounds (fun u hmem => stillStandsAt_of_onlyOutput (resume_putsAt_unterminated hoff (hnz' u hmem) _))
      arrivals (stillStandsAt_of_onlyOutput (hputs _))
  · exact stillStandsAt_rounds (fun u hmem => stillStandsAt_of_onlyOutput (resume_putspAt_unterminated hoff (hnz' u hmem) _))
      arrivals (stillStandsAt_of_onlyOutput (hputsp _))

/-- Settles O42: after the prompt IN takes the head of the queue, or waits. -/
theorem inPromptsThenTakesACharacter : Obligations.InPromptsThenTakesACharacter := by
  intro s
  refine ⟨fun b rest hq => ⟨_, ?_, onlyCharacterTaken_link b rest _ s⟩, fun hq => ⟨_, ?_, onlyLinkAndWait_link .inWaits _ s⟩⟩
  · rw [exec_in, inRoutine_eq_characterTaken Config.machine (s := s.link) hq]
  · rw [exec_in, inRoutine_waits Config.machine (s := s.link) hq]

/-- Settles O46: both words are encodings, and the abort writes the record and the run state alone. -/
theorem illegalOpcodeAborts : Obligations.IllegalOpcodeAborts := by
  intro low s
  refine ⟨encode_rti low ▸ decode_encode _, encode_res low ▸ decode_encode _, ⟨_, exec_rti low s, ?_⟩, ⟨_, exec_res low s, ?_⟩⟩
  all_goals exact ⟨rfl, rfl, rfl, fun _ _ => rfl, rfl, rfl, fun _ => rfl, ⟨rfl, rfl⟩, rfl⟩

/-- Settles O37: after the link OUT prints the low byte and a flush, and the premise is that no routine was unfinished. -/
theorem outWritesTheLowByte : Obligations.OutWritesTheLowByte := by
  intro s hsus
  refine ⟨_, exec_out s, s.reg_link_r7, ?_, sameRegsBut_link s, rfl, rfl, fun _ => rfl, rfl, rfl, rfl, hsus⟩
  rw [← lowByte_eq_ofNat]
  rfl

/-- Settles O43: after the link HALT writes the output and the run state alone. -/
theorem haltWritesTheNoticeAndHalts : Obligations.HaltWritesTheNoticeAndHalts := by
  intro s
  refine ⟨_, exec_halt s, rfl, rfl, ?_, s.reg_link_r7, sameRegsBut_link s, rfl, rfl, fun _ => rfl, rfl, rfl, rfl⟩
  exact (List.append_assoc ..).symm

/-- Settles O44: no routine runs, so the linked state stands. -/
theorem undefinedVectorOnlyLinks : Obligations.UndefinedVectorOnlyLinks := by
  intro v s hv
  refine ⟨s.link, ?_, onlyPcAndLink_setPc_link s.pc s⟩
  rw [exec_trap, trapUnit_undefined _ _ hv]

end Sys2Proof.Machine
end

section
/-! PROOFS. The exceptions family (spec 60_exceptions.md): the step of a running machine (R170, R171), the wait of GETC and IN (R184), and
the terminal states (R186). -/

namespace Sys2Proof.Machine

open Sys2Proof.Claims

/-! ### The wait (R184) -/

/-- In RUN with a routine unfinished at `w`, a step resumes it there. -/
theorem step_of_suspended {s : State} {w : Suspended} (hrun : s.run = .run) (hsus : s.suspended = some w) :
    step s = .next (resumeRoutine Config.machine w s) := by
  rw [step_eq_goOn hrun (Option.isSome_of_eq_some hsus), goOn, hsus]

theorem State.setSuspended_self {s : State} {o : Option Suspended} (h : s.suspended = o) : s.setSuspended o = s := by
  subst h
  rfl

/-- On an empty queue a waiting machine waits on, unchanged. -/
theorem step_of_waiting {s : State} (hrun : s.run = .run) (hq : s.conin = [])
    (hw : s.suspended = some .getcWaits ∨ s.suspended = some .inWaits) : step s = .next s := by
  rcases hw with hsus | hsus
  · rw [step_of_suspended hrun hsus, resumeRoutine, getcRoutine_waits hq, State.setSuspended_self hsus]
  · rw [step_of_suspended hrun hsus, resumeRoutine, inRead_waits hq, State.setSuspended_self hsus]

/-- After an arrival the resumed routine takes `b`, and of the wait only the output printed before it is left. -/
theorem step_of_arrival {w : Suspended} {s : State} {b : Byte} (prompt echo : List ConEvent) (hrun : s.run = .run) (hq : s.conin = [])
    (hresume : ∀ u : State, u.conin = [b] → resumeRoutine Config.machine w u = characterTaken b [] echo u) :
    step (((s.link.emit prompt).setSuspended (some w)).supply b) =
      .next (characterTaken b [] (prompt ++ echo) (s.supply b).link) := by
  have hruns : (((s.link.emit prompt).setSuspended (some w)).supply b).run = .run := hrun
  rw [step_of_suspended hruns rfl, hresume _ (congrArg (· ++ [b]) hq), characterTaken, characterTaken,
    ← State.emit_emit]
  rfl

/-! ### The terminal states (R186) -/

/-- In HALTED and ABORTED a step answers the same state. -/
theorem step_of_terminal {s : State} (hrun : s.run ≠ .run) : step s = .next s := by
  cases h : s.run with
  | run => exact absurd h hrun
  | halted | aborted => rw [step, h]

/-- From a terminal state a move changes the input queue at most. -/
theorem Move.of_terminal {s t : State} (m : Move s t) (hrun : s.run ≠ .run) : t = s.setConin t.conin := by
  cases m with
  | step h =>
    rw [step_of_terminal hrun] at h
    cases h
    rfl
  | supply b => rfl

theorem Reaches.of_terminal {s t : State} (h : Reaches s t) (hrun : s.run ≠ .run) : t = s.setConin t.conin := by
  induction h with
  | start => rfl
  | @move t u _ m ih =>
    have hrun' : t.run ≠ .run := by rwa [ih, State.run_setConin]
    calc u = t.setConin u.conin := m.of_terminal hrun'
      _ = (s.setConin t.conin).setConin u.conin := congrArg (State.setConin u.conin) ih
      _ = s.setConin u.conin := rfl

/-! ### The obligations -/

/-- Settles O45: the wait stands by `step_of_waiting`; after the arrival both sides take `b`, with the same output in all. -/
theorem waitChangesNothingAndArrivalCompletes : Obligations.WaitChangesNothingAndArrivalCompletes := by
  intro v s b hv hrun _ hq
  have harrived : (s.supply b).link.conin = [b] := congrArg (· ++ [b]) hq
  rcases hv with rfl | rfl
  · refine ⟨(s.link.emit []).setSuspended (some .getcWaits), ?_, step_of_waiting hrun hq (.inl rfl), ?_⟩
    · rw [exec_getc, getcRoutine_waits (s := s.link) hq, State.emit_nil]
    · rw [step_of_arrival [] [] hrun hq fun _ => getcRoutine_eq_characterTaken, exec_getc,
        getcRoutine_eq_characterTaken harrived, List.nil_append]
  · refine ⟨(s.link.emit (Config.machine.inPrompt.map .byte ++ [.flush])).setSuspended (some .inWaits), ?_,
      step_of_waiting hrun hq (.inr rfl), ?_⟩
    · rw [exec_in, inRoutine_waits _ (s := s.link) hq]
    · rw [step_of_arrival _ [.byte b, .flush] hrun hq fun _ => inRead_takes, exec_in,
        inRoutine_eq_characterTaken _ harrived, List.append_assoc]
      rfl

/-- Settles O51: the step stands still, and a run from there can only queue input. -/
theorem terminalStatesAreForEver : Obligations.TerminalStatesAreForEver := by
  intro s hrun
  exact ⟨step_of_terminal hrun, fun t h => h.of_terminal hrun⟩

/-- Settles O47: the step is fetch, decode and execute; off 0xFE00 the fetch reads a plain cell. -/
theorem stepRunsTheDecodedInstruction : Obligations.StepRunsTheDecodedInstruction := by
  intro s i hrun hsus
  refine ⟨fun hpc hdec => ?_, fun hdec => ?_⟩
  · rw [step_of_run_plain hrun hsus hpc, hdec]
  · rw [step_of_run hrun hsus, fetch, hdec]

end Sys2Proof.Machine
end

section
/-! PROOFS. The launch (spec 70_reset_and_hazards.md R190 to R195, R202): an image's bytes are read back as its words (R192), plain stores
at successive addresses put them in memory, and no more than memory and the input queue tells a launch state from reset. -/

namespace Sys2Proof.Machine

open Sys2Proof.Claims

/-! ### An image's bytes (R192) -/

theorem highByte_append_lowByte (w : Word) : (highByte w ++ lowByte w : BitVec (8 + 8)) = w :=
  BitVec.extractLsb'_append_extractLsb'_eq_extractLsb' (by decide) |>.trans BitVec.extractLsb'_eq_self

theorem imageBytes_cons (w : Word) (ws : List Word) : imageBytes (w :: ws) = highByte w :: lowByte w :: imageBytes ws := by
  rw [highByte_eq_ofNat, lowByte_eq_ofNat]
  rfl

/-- Reading an image's bytes gives back its words. -/
theorem wordsOfBytes_imageBytes (ws : List Word) : wordsOfBytes (imageBytes ws) = some ws := by
  induction ws with
  | nil => rfl
  | cons w ws ih => rw [imageBytes_cons, wordsOfBytes, ih, Option.map_some, highByte_append_lowByte]

theorem parseImage_imageBytes {origin : Word} {ws : List Word} (hfit : origin.toNat + ws.length ≤ memoryWords) :
    parseImage (imageBytes (origin :: ws)) = some (origin, ws) := by
  simp only [parseImage, wordsOfBytes_imageBytes, if_pos hfit]

/-! ### The cells after storing words at successive addresses -/

/-- A cell at none of the addresses stored to keeps its word. -/
theorem cell_storeWords_outside {a b : Word} {ws : List Word} (s : State) (h : ∀ i < ws.length, b ≠ a + BitVec.ofNat 16 i) :
    (storeWords a ws s).cell b = s.cell b := by
  induction ws generalizing a s with
  | nil => rfl
  | cons w ws ih =>
    have hhead : b ≠ a := by simpa using h 0 (Nat.succ_pos _)
    have htail : ∀ i < ws.length, b ≠ a + 1 + BitVec.ofNat 16 i := fun i hi =>
      add_ofNat_succ a i ▸ h (i + 1) (Nat.succ_lt_succ hi)
    rw [storeWords, ih _ htail, State.cell_storeCell_ne s a w b hhead]

/-- Less than a whole turn of the address space never comes back to where it began. -/
theorem ne_add_ofNat_succ (a : Word) {n : Nat} (hn : n + 1 < 65536) : a ≠ a + BitVec.ofNat 16 (n + 1) := by
  intro h
  have hzero : BitVec.ofNat 16 (n + 1) = 0 := BitVec.self_eq_add_right.1 h
  simpa [Nat.mod_eq_of_lt hn] using congrArg BitVec.toNat hzero

/-- As many words as memory holds, or fewer, are all there after the store: no later one falls on an earlier one's cell. -/
theorem cell_storeWords {a w : Word} {ws : List Word} {s : State} {i : Nat} (hwf : Memory.wf s.mem = true)
    (hlen : ws.length ≤ 65536) (hw : ws[i]? = some w) : (storeWords a ws s).cell (a + BitVec.ofNat 16 i) = w := by
  induction ws generalizing a s i with
  | nil => cases hw
  | cons v ws ih =>
    have hlen' : ws.length + 1 ≤ 65536 := hlen
    rw [storeWords]
    cases i with
    | zero =>
      obtain rfl : v = w := Option.some.inj hw
      have hlater : ∀ j < ws.length, a ≠ a + 1 + BitVec.ofNat 16 j := fun j hj =>
        add_ofNat_succ a j ▸ ne_add_ofNat_succ a (by omega)
      rw [BitVec.add_zero, cell_storeWords_outside _ hlater, State.cell_storeCell_self s a v hwf]
    | succ j =>
      rw [add_ofNat_succ]
      exact ih (State.wf_storeCell s a v hwf) (by omega) hw

/-- An image that fits does not wrap, so it covers the addresses from its origin up to its length and no other. -/
theorem ne_add_ofNat_of_outside {origin b : Word} {n : Nat} (hfit : origin.toNat + n ≤ 65536)
    (hb : b.toNat < origin.toNat ∨ origin.toNat + n ≤ b.toNat) {i : Nat} (hi : i < n) : b ≠ origin + BitVec.ofNat 16 i := by
  rintro rfl
  rw [BitVec.toNat_add, BitVec.toNat_ofNat] at hb
  omega

/-! ### What loading leaves unchanged -/

/-- `t` is `s` but for memory, which is canonical in `t` if it is in `s`. -/
structure LoadedFrom (s t : State) : Prop where
  eq : t = { s with mem := t.mem }
  memWf : Memory.wf s.mem = true → Memory.wf t.mem = true

theorem LoadedFrom.refl (s : State) : LoadedFrom s s := ⟨rfl, id⟩

theorem LoadedFrom.trans {s t u : State} (h : LoadedFrom s t) (h' : LoadedFrom t u) : LoadedFrom s u where
  eq := by
    calc u = { t with mem := u.mem } := h'.eq
      _ = { s with mem := u.mem } := congrArg (fun v : State => { v with mem := u.mem }) h.eq
  memWf := h'.memWf ∘ h.memWf

theorem loadedFrom_storeCell (a v : Word) (s : State) : LoadedFrom s (s.storeCell a v) := ⟨rfl, State.wf_storeCell s a v⟩

theorem loadedFrom_storeWords (a : Word) (ws : List Word) (s : State) : LoadedFrom s (storeWords a ws s) := by
  induction ws generalizing a s with
  | nil => exact .refl s
  | cons w ws ih => exact (loadedFrom_storeCell a w s).trans (ih (a + 1) (s.storeCell a w))

/-- Images load when the first is one and the others load after it (R193, R194). -/
theorem loadImages_cons_eq_some {image : List Byte} {rest : List (List Byte)} {s t : State}
    (h : loadImages (image :: rest) s = some t) :
    ∃ origin ws, parseImage image = some (origin, ws) ∧ loadImages rest (storeWords origin ws s) = some t := by
  rw [loadImages] at h
  split at h
  · cases h
  · next origin ws hparse => exact ⟨origin, ws, hparse, h⟩

theorem loadedFrom_loadImages {images : List (List Byte)} {s t : State} (h : loadImages images s = some t) : LoadedFrom s t := by
  induction images generalizing s with
  | nil => exact Option.some.inj h ▸ .refl s
  | cons image rest ih =>
    obtain ⟨origin, ws, -, hrest⟩ := loadImages_cons_eq_some h
    exact (loadedFrom_storeWords origin ws s).trans (ih hrest)

/-! ### The launch -/

theorem loadedFrom_launch {images : List (List Byte)} {input : List Byte} {s : State} (h : launch images input = some s) :
    LoadedFrom (State.reset.setConin input) s := by
  cases images with
  | nil => cases h
  | cons image rest => exact loadedFrom_loadImages h

/-- One image that fits launches to the reset state with the image's words stored at its origin. -/
theorem launch_imageBytes {origin : Word} {ws : List Word} (input : List Byte) (hfit : origin.toNat + ws.length ≤ memoryWords) :
    launch [imageBytes (origin :: ws)] input = some (storeWords origin ws (State.reset.setConin input)) := by
  simp only [launch, loadImages, parseImage_imageBytes hfit]

/-! ### The obligations -/

/-- Settles O58: the image is read back and stored; its cells hold its words, the others stay empty, and loading touches nothing else. -/
theorem launchLoadsTheImage : Obligations.LaunchLoadsTheImage := by
  intro origin ws input hfit
  have hrest := (loadedFrom_storeWords origin ws (State.reset.setConin input)).eq
  refine ⟨_, launch_imageBytes input hfit, fun i w hw => cell_storeWords reset_mem_wf (by omega) hw, fun a ha => ?_, ?_⟩
  · exact cell_storeWords_outside _ fun i hi => ne_add_ofNat_of_outside hfit ha hi
  · rw [hrest]
    exact ⟨rfl, State.reg_reset, rfl, rfl, rfl, rfl, rfl⟩

/-- Settles O59: loading keeps memory canonical and the rest at reset, where the machine runs and has no abort record. -/
theorem launchMeetsTheInvariant : Obligations.LaunchMeetsTheInvariant := by
  intro images input s h
  obtain ⟨hs, hwf⟩ := loadedFrom_launch h
  have hrun : s.run = .run := congrArg State.run hs
  have hfault : s.fault = none := congrArg State.fault hs
  exact ⟨(State.inv_iff_of_run hrun).2 ⟨hwf reset_mem_wf, hfault⟩, hs⟩

end Sys2Proof.Machine
end
